-- ==== Sys2Proof/Word.lean ====
section
/-! DEFINITION. The word types of XS32-CMD (00_scope.md R8, R15; 30_encoding.md R60, R62). -/

namespace Sys2Proof

/-- A 32-bit pattern: STATE and the operand fields A and B (R8, R20, R60). -/
abbrev Word := BitVec 32

/-- The 64-bit data of a response (R62). -/
abbrev Data := BitVec 64

/-- An 8-bit field: an opcode or a status code (R60, R62). -/
abbrev Byte := BitVec 8

/-- A 72-bit command word, format C (R60). -/
abbrev CmdWord := BitVec 72

/-- A 72-bit response word, format RSP (R62). -/
abbrev RspWord := BitVec 72

end Sys2Proof
end

