-- ==== Sys2Proof/Config.lean ====
section
/-! DEFINITION. The OPEN parameters of the spec (00_scope.md R11 to R13), as constants with no body:
no proof can see a value of one, so a claim that names one holds for every value the spec allows. -/

namespace Sys2Proof

/-- The two values PERSIST_BYTE_ORDER may have (R12). -/
inductive ByteOrder
  | little
  | big
deriving DecidableEq, Repr, Inhabited

/-- LATENCY less one, by opcode: R220 lets it differ from one opcode to another and from nothing else. -/
opaque Config.latencyBeyondOne : Byte → Nat

/-- LATENCY (R11): clock cycles from acceptance to response, at least 1. The model represents no time
(R220), so no definition of the machine reads it. -/
def Config.latency (op : Byte) : Nat := Config.latencyBeyondOne op + 1

/-- PERSIST_BYTE_ORDER (R12): the order of bytes a host uses if it serializes a saved STATE. -/
opaque Config.persistByteOrder : ByteOrder

/-- INSTANCE_COUNT less one. -/
opaque Config.instancesBeyondOne : Nat

/-- INSTANCE_COUNT (R13): how many independent instances a platform holds, at least 1. -/
def Config.instanceCount : Nat := Config.instancesBeyondOne + 1

end Sys2Proof
end

