-- ==== Sys2Proof/Syntax.lean ====
section
/-! DEFINITION. The commands of XS32-CMD version 1, one constructor per row of the opcode table
(30_encoding.md R64, R65), what a decoder can answer, and the names of the status codes (R70). -/

namespace Sys2Proof

/-- A command with the operands it uses (R64). A field a command ignores is no part of it (R68). -/
inductive Instr
  /-- INIT: load `seed` into STATE (R90). -/
  | init (seed : Word)
  /-- ADVANCE: advance STATE and return it (R105). -/
  | advance
  /-- RANGE: advance, then return a value in [min, max); the operands are the signed integers
  `s32(A)` and `s32(B)` (R9, R121). -/
  | range (min max : Int)
  /-- FLOAT: advance, then return the value divided by 4294967295 as a binary64 (R141). -/
  | float
  /-- SAVE: return STATE (R160). -/
  | save
  /-- RESTORE: overwrite STATE with `value` (R161). -/
  | restore (value : Word)
deriving DecidableEq, Repr

/-- What a command word decodes to: a command, or a reserved opcode (R65, R66). -/
inductive Decoded
  | instr (i : Instr)
  /-- The word is illegal: its `op` is `0x00` or `0x07` to `0xFF` (R66). -/
  | reserved (op : Byte)
deriving DecidableEq, Repr

/-- The status codes a core produces (R70). The codes `0x04` to `0xFF` have no name: they are never
produced. -/
inductive Status
  | ok
  | invalidState
  | invalidRange
  | illegalOp
deriving DecidableEq, Repr

/-- The three errors a command can raise (R180 to R183). -/
inductive CmdError
  /-- An advance-based command found STATE = 0 (R181). -/
  | invalidState
  /-- RANGE with max ≤ min (R182). -/
  | invalidRange
  /-- A reserved opcode (R183). -/
  | illegalOp
deriving DecidableEq, Repr

end Sys2Proof
end

