-- ==== Sys2Proof/WellFormed.lean ====
section
/-! DEFINITION. Which commands have an encoding: every one whose integer operands are 32-bit
two's-complement signed integers (00_scope.md R9, 30_encoding.md R73). -/

namespace Sys2Proof

/-- `n` is a 32-bit two's-complement signed integer (R9). -/
def fitsS32 (n : Int) : Bool := decide (-2 ^ 31 ≤ n) && decide (n ≤ 2 ^ 31 - 1)

/-- The command's operands fit its fields. RANGE does not ask for `min < max`: an empty range is a
legal command that gets INVALID_RANGE from the core (R73). -/
def Instr.wf : Instr → Bool
  | .init _ => true
  | .advance => true
  | .range min max => fitsS32 min && fitsS32 max
  | .float => true
  | .save => true
  | .restore _ => true

end Sys2Proof
end

