-- ==== Sys2Proof/Decode.lean ====
section
/-! DEFINITION. Decoding and encoding of command words (30_encoding.md R60 to R68). The decoder is
total on 72-bit words; a reserved opcode is answered by name. -/

namespace Sys2Proof

/-- `op = cmd[7:0]` (R61). -/
def opOf (w : CmdWord) : Byte := w.extractLsb' 0 8

/-- `A = cmd[39:8]` (R61). -/
def aOf (w : CmdWord) : Word := w.extractLsb' 8 32

/-- `B = cmd[71:40]` (R61). -/
def bOf (w : CmdWord) : Word := w.extractLsb' 40 32

/-- The command word with the fields `op`, `A`, `B` (R60): B in bits 71:40, A in 39:8, op in 7:0. -/
def cmdWord (op : Byte) (a b : Word) : CmdWord := b ++ a ++ op

/-- `s32(v)`: the signed (two's-complement) value of a 32-bit pattern (R15). -/
def s32 (v : Word) : Int := v.toInt

/-- `u32(n) = n mod 2^32` as a 32-bit pattern (R15). -/
def u32 (n : Int) : Word := BitVec.ofInt 32 n

/-- The command a word stands for, selected by `op` alone (R63, R65), with the operands the command
uses (R64); or its reserved opcode (R66). -/
def decode (w : CmdWord) : Decoded :=
  if opOf w = 0x01#8 then .instr (.init (aOf w))
  else if opOf w = 0x02#8 then .instr .advance
  else if opOf w = 0x03#8 then .instr (.range (s32 (aOf w)) (s32 (bOf w)))
  else if opOf w = 0x04#8 then .instr .float
  else if opOf w = 0x05#8 then .instr .save
  else if opOf w = 0x06#8 then .instr (.restore (aOf w))
  else .reserved (opOf w)

/-- The opcode map (R65). -/
def opcode : Instr → Byte
  | .init _ => 0x01#8
  | .advance => 0x02#8
  | .range _ _ => 0x03#8
  | .float => 0x04#8
  | .save => 0x05#8
  | .restore _ => 0x06#8

/-- The A field an assembler writes; 0 where the command ignores it (R64, R68, R73). -/
def fieldA : Instr → Word
  | .init seed => seed
  | .advance => 0
  | .range min _ => u32 min
  | .float => 0
  | .save => 0
  | .restore value => value

/-- The B field an assembler writes; 0 where the command ignores it (R64, R68, R73). -/
def fieldB : Instr → Word
  | .init _ => 0
  | .advance => 0
  | .range _ max => u32 max
  | .float => 0
  | .save => 0
  | .restore _ => 0

/-- The command word of a command (R60, R65, R73). -/
def encode (i : Instr) : CmdWord := cmdWord (opcode i) (fieldA i) (fieldB i)

/-- The 72-bit word whose low `nbits` bits are those of `w` and whose other bits are 0. -/
def tableWord (nbits w : Nat) : CmdWord := BitVec.ofNat 72 (w % 2 ^ nbits)

/-- The command the decoder reads from a table row's bits. There is one command length, 72 bits
(R63): a row of more bits is no command of this set. -/
def decodeTableWord (nbits w : Nat) : Option Instr :=
  if nbits ≤ 72 then
    match decode (tableWord nbits w) with
    | .instr i => some i
    | .reserved _ => none
  else none

end Sys2Proof
end

