-- ==== Sys2Proof/Machine/State.lean ====
section
/-! DEFINITION. The state of one `xorshift32_core` instance as plain data (10_state.md), the reasons a
step can stop, and the state after reset (R33, R34, R211). -/

namespace Sys2Proof.Machine

/-- What the host drives on the input pins at one step (70_reset_and_hazards.md R214). -/
structure Pins where
  /-- reset, active high (R210) -/
  rst : Bool
  /-- the host presents a command -/
  cmdValid : Bool
  /-- the command word presented -/
  cmd : CmdWord
  /-- the host takes the response -/
  rspReady : Bool
deriving DecidableEq, Repr

/-- The machine. `STATE` is its one architectural register (R20); `cmd` and `rsp` are what the command
and response port holds (R31, R34). `host` and `taken` are the model's own: the outside world's coming
inputs and what it has received (notes/assumptions/5.md and 6.md). -/
structure State where
  /-- the generator state, the only register (R20) -/
  STATE : Word
  /-- the command accepted and whose response has not been taken; none: the port is empty (R31, R214) -/
  cmd : Option CmdWord
  /-- the response presented and not yet taken (R31, R214) -/
  rsp : Option RspWord
  /-- the input pins at the coming steps, the next step's first; past its end every pin is low -/
  host : List Pins
  /-- the responses the host has taken, oldest first: the observation of R219 -/
  taken : List RspWord
deriving DecidableEq, Repr

/-- Why a step stops with a fault. -/
inductive Fault
  /-- The host takes a response whose status is `0x04` to `0xFF`. Raised by the port when a response is
  taken (`takeResponse`); no command produces such a status (R70; 93_implementation_defined.md item 8),
  so only a state no run reaches raises it. Safe: the machine stops where a conforming core never is. -/
  | reservedStatus
deriving DecidableEq, Repr

/-- Why a step is refused. -/
inductive Refusal
  /-- The command has no meaning in the model. Raised only by an arm of `exec` that rejects its command
  by name; no arm of this model does. Safe. -/
  | notModelled (mnemonic : String)
deriving DecidableEq, Repr

/-- Right after reset: STATE = 1 (R33), the port empty (R34, R211). The host's pins are low and no
response has been taken (the model's own fields, notes/assumptions/5.md and 6.md). -/
def State.reset : State where
  STATE := 0x00000001#32
  cmd := none
  rsp := none
  host := []
  taken := []

end Sys2Proof.Machine
end

