-- ==== Sys2Proof/Machine/Flags.lean ====
section
/-! DEFINITION. The core keeps no flag and no condition code; its two conditions are predicates on STATE
(10_state.md R26). -/

namespace Sys2Proof.Machine

/-- `Live := (STATE != 0)` (R26). -/
def State.isLive (s : State) : Bool := s.STATE != 0

/-- `Invalid := (STATE == 0)` (R26). -/
def State.isInvalid (s : State) : Bool := s.STATE == 0

end Sys2Proof.Machine
end

