-- ==== Sys2Proof/Machine/Operands.lean ====
section
/-! DEFINITION. The pure operators of the spec's pseudocode: shifts and width changes (00_scope.md R15,
R16), and the response format with its status codes (30_encoding.md R62, R70). -/

namespace Sys2Proof.Machine

/-- `x << n`: logical left shift, truncated to 32 bits (R16). -/
def shl (x : Word) (n : Nat) : Word := x <<< n

/-- `x >>s n`: arithmetic right shift, bit 31 copied in (R16). -/
def sar (x : Word) (n : Nat) : Word := x.sshiftRight n

/-- `x >>u n`: logical right shift. It only states what the core does not do (R16, R108). -/
def shr (x : Word) (n : Nat) : Word := x >>> n

/-- `zext_64(v)`: widened with zeros (R15). -/
def zext64 (v : Word) : Data := v.setWidth 64

/-- `sext_64(v)`: widened with copies of bit 31 (R15). -/
def sext64 (v : Word) : Data := v.signExtend 64

/-- The status codes (R70). -/
def statusCode : Status → Byte
  | .ok => 0x00#8
  | .invalidState => 0x01#8
  | .invalidRange => 0x02#8
  | .illegalOp => 0x03#8

/-- The status an error is reported with (R181 to R183). -/
def errorStatus : CmdError → Status
  | .invalidState => .invalidState
  | .invalidRange => .invalidRange
  | .illegalOp => .illegalOp

/-- The response word with a status and data: data in bits 71:8, status in 7:0 (R62). -/
def rspWord (st : Status) (data : Data) : RspWord := data ++ statusCode st

/-- `status = rsp[7:0]` (R62). -/
def rspStatus (r : RspWord) : Byte := r.extractLsb' 0 8

/-- `data = rsp[71:8]` (R62). -/
def rspData (r : RspWord) : Data := r.extractLsb' 8 64

/-- The status of `r` is one a core produces, `0x00` to `0x03` (R70). -/
def statusNamed (r : RspWord) : Bool := decide ((rspStatus r).toNat ≤ 3)

end Sys2Proof.Machine
end

