-- ==== Sys2Proof/Machine/Transform.lean ====
section
/-! DEFINITION. `prng_state_advance`: the transform T and its three steps (41_advance.md R100 to R103),
the inverses of its outer steps (R107), and the logical-shift transform the core never uses (R108). -/

namespace Sys2Proof.Machine

/-- Step 1: `S1(x) = x ^ u32(x << 13)` (R101). -/
def S1 (x : Word) : Word := x ^^^ shl x 13

/-- Step 2, an ARITHMETIC right shift: `S2(x) = x ^ (x >>s 17)` (R102). -/
def S2 (x : Word) : Word := x ^^^ sar x 17

/-- Step 3: `S3(x) = x ^ u32(x << 5)` (R103). -/
def S3 (x : Word) : Word := x ^^^ shl x 5

/-- The transform `T(x) = S3(S2(S1(x)))` (R100). -/
def T (x : Word) : Word := S3 (S2 (S1 x))

/-- The inverse of step 1 (R107). -/
def S1inv (y : Word) : Word := y ^^^ shl y 13 ^^^ shl y 26

/-- The inverse of step 3 (R107). -/
def S3inv (z : Word) : Word := z ^^^ shl z 5 ^^^ shl z 10 ^^^ shl z 15 ^^^ shl z 20 ^^^ shl z 25 ^^^ shl z 30

/-- The transform with a logical shift in step 2, which the core does NOT use (R108). -/
def TL (x : Word) : Word := S3 (S1 x ^^^ shr (S1 x) 17)

end Sys2Proof.Machine
end

