-- ==== Sys2Proof/Machine/Ops.lean ====
section
/-! DEFINITION. The operations over the machine that the commands share: writing STATE, responding,
raising an error (60_exceptions.md R180), and the advance procedure (41_advance.md R104). There is no
memory (R40), so there is no memory operation, and no return from an exception (R190). -/

namespace Sys2Proof.Machine

/-- `STATE <- v` (R17). -/
def State.setSTATE (v : Word) (s : State) : State := { s with STATE := v }

/-- `respond(status, data)` (R17): the response word is presented on the port (R62). -/
def State.respond (st : Status) (data : Data) (s : State) : State := { s with rsp := some (rspWord st data) }

/-- `raise`: the error's status, data 0, STATE as it was (R17, R180, R184). It is the core's only form
of exception: nothing is saved and control goes nowhere (R189). -/
def raise (e : CmdError) (s : State) : Host.Outcome State Fault Refusal :=
  .next (s.respond (errorStatus e) 0)

/-- `Advance()` (R104): none where it raises InvalidState, before any write; otherwise the new STATE and
the machine holding it. -/
def advance? (s : State) : Option (Word × State) :=
  if s.isInvalid then none
  else
    let y := T s.STATE
    some (y, s.setSTATE y)

/-- The common shape of ADVANCE, RANGE and FLOAT: `v <- Advance()`, then `respond(OK, result v)`. -/
def advanceThen (result : Word → Data) (s : State) : Host.Outcome State Fault Refusal :=
  match advance? s with
  | none => raise .invalidState s
  | some (v, s') => .next (s'.respond .ok (result v))

end Sys2Proof.Machine
end

