-- ==== Sys2Proof/Machine/Advance.lean ====
section
/-! DEFINITION. ADVANCE (41_advance.md). -/

namespace Sys2Proof.Machine

/-- `ADVANCE`: v <- Advance(); respond(OK, zext_64(v)) (R105). -/
def execAdvance (s : State) : Host.Outcome State Fault Refusal :=
  advanceThen zext64 s

end Sys2Proof.Machine
end

