-- ==== Sys2Proof/Machine/Construction.lean ====
section
/-! DEFINITION. INIT (40_construction.md). -/

namespace Sys2Proof.Machine

/-- `INIT seed`: STATE <- A; respond(OK, 0). It never fails, for the seed 0 either (R90, R91). -/
def execInit (seed : Word) (s : State) : Host.Outcome State Fault Refusal :=
  .next ((s.setSTATE seed).respond .ok 0)

end Sys2Proof.Machine
end

