-- ==== Sys2Proof/Machine/Samplers.lean ====
section
/-! DEFINITION. The pure functions of `ranged_sampler` (42_ranged_sampler.md R120) and `float_sampler`
(43_float_sampler.md R140), with the division `f64_div` and `bits64` of 00_scope.md R17. -/

namespace Sys2Proof.Machine

/-- `RS(v, min, max) = min + (v mod (max - min))`, exact, `v` read as unsigned (R120). -/
def RS (v : Word) (min max : Int) : Int := min + (v.toNat : Int) % (max - min)

/-- `floor(log2(n / d))` for n, d ≥ 1. -/
def quotLog2 (n d : Nat) : Int :=
  let e : Int := (n.log2 : Int) - (d.log2 : Int)
  if d * 2 ^ e.toNat ≤ n * 2 ^ (-e).toNat then e else e - 1

/-- The natural number nearest to `n / d`, ties to even, for d ≥ 1. -/
def divNearestEven (n d : Nat) : Nat :=
  let q := n / d
  let r := n % d
  if 2 * r < d then q else if d < 2 * r then q + 1 else q + q % 2

/-- The exponent of the unit in the last place of a binary64 of the size of `n / d`: 53 significant
bits, but never below the subnormals' 2^-1074 (binary64: R17, 93_implementation_defined.md G3). -/
def quotUnit (n d : Nat) : Int := max (quotLog2 n d - 52) (-1074)

/-- `bits64(f64_div(n, d))` for n ≥ 0, d ≥ 1: the encoding of the binary64 nearest to `n / d`, ties to
even (R17). The significand `m` counts units of `2 ^ quotUnit`; adding it to the exponent field lets a
carry out of the significand raise the exponent; past the largest finite value stands infinity. -/
def f64DivBits (n d : Nat) : Data :=
  if n = 0 then 0 else
    let q := quotUnit n d
    let m := divNearestEven (n * 2 ^ (-q).toNat) (d * 2 ^ q.toNat)
    BitVec.ofNat 64 (min ((q + 1074).toNat * 2 ^ 52 + m) (0x7FF * 2 ^ 52))

/-- The float divisor, exactly 4294967295 = 2^32 - 1 (R14, R140, R144; 90_conflicts.md C1). -/
def floatDivisor : Nat := 4294967295

/-- `bits64(FS(v))`: the float sampler's value as its 64-bit encoding (R140, R141). -/
def FSbits (v : Word) : Data := f64DivBits v.toNat floatDivisor

end Sys2Proof.Machine
end

