-- ==== Sys2Proof/Machine/Sampling.lean ====
section
/-! DEFINITION. RANGE (42_ranged_sampler.md) and FLOAT (43_float_sampler.md). -/

namespace Sys2Proof.Machine

/-- `RANGE min, max`: the range check first, which then wins over InvalidState and reads no STATE (R124,
R185); then v <- Advance(); respond(OK, sext_64(u32(RS(v, min, max)))) (R121). The comparison is of the
signed values (R125). -/
def execRange (min max : Int) (s : State) : Host.Outcome State Fault Refusal :=
  if min < max then advanceThen (fun v => sext64 (u32 (RS v min max))) s
  else raise .invalidRange s

/-- `FLOAT`: v <- Advance(); respond(OK, bits64(FS(v))) (R141). -/
def execFloat (s : State) : Host.Outcome State Fault Refusal :=
  advanceThen FSbits s

end Sys2Proof.Machine
end

