-- ==== Sys2Proof/Machine/Snapshot.lean ====
section
/-! DEFINITION. SAVE and RESTORE (44_snapshot_restore.md). -/

namespace Sys2Proof.Machine

/-- `SAVE`: respond(OK, zext_64(STATE)); no check for zero and no write (R160). -/
def execSave (s : State) : Host.Outcome State Fault Refusal :=
  .next (s.respond .ok (zext64 s.STATE))

/-- `RESTORE value`: STATE <- A; respond(OK, 0); no validation (R161). -/
def execRestore (value : Word) (s : State) : Host.Outcome State Fault Refusal :=
  .next ((s.setSTATE value).respond .ok 0)

end Sys2Proof.Machine
end

