-- ==== Sys2Proof/Machine/Dispatch.lean ====
section
/-! DEFINITION. One arm per command (30_encoding.md R65). -/

namespace Sys2Proof.Machine

def exec (i : Instr) (s : State) : Host.Outcome State Fault Refusal :=
  match i with
  | .init seed => Sys2Proof.Machine.execInit seed s
  | .advance => Sys2Proof.Machine.execAdvance s
  | .range min max => Sys2Proof.Machine.execRange min max s
  | .float => Sys2Proof.Machine.execFloat s
  | .save => Sys2Proof.Machine.execSave s
  | .restore value => Sys2Proof.Machine.execRestore value s

end Sys2Proof.Machine
end

