-- ==== Sys2Proof/Machine/Port.lean ====
section
/-! DEFINITION. The command and response port and reset (70_reset_and_hazards.md R210, R211, R214,
R215): the output pins, acceptance, the performance of an accepted command, the handing over of its
response, and what one step of the port does with the input pins. -/

namespace Sys2Proof.Machine

/-- Input pins that ask for nothing. -/
def Pins.quiet : Pins := { rst := false, cmdValid := false, cmd := 0, rspReady := false }

/-- Input pins that present the command `c`. -/
def Pins.present (c : CmdWord) : Pins := { Pins.quiet with cmdValid := true, cmd := c }

/-- Input pins that take a response. -/
def Pins.take : Pins := { Pins.quiet with rspReady := true }

/-- The input pins at the coming step: the head of the host's list, and low past its end. -/
def State.pins (s : State) : Pins := s.host.headD Pins.quiet

/-- The host's list moves on by one step. -/
def State.nextPins (s : State) : State := { s with host := s.host.tail }

/-- `cmd_ready`: 0 while `rst` is asserted and from acceptance until the response has been taken (R211,
R214). -/
def State.cmdReady (s : State) (p : Pins) : Bool := !p.rst && s.cmd.isNone && s.rsp.isNone

/-- `rsp_valid` (R214). -/
def State.rspValid (s : State) : Bool := s.rsp.isSome

/-- A command is accepted where `cmd_valid = 1` and `cmd_ready = 1` (R214). -/
def State.accepts (s : State) (p : Pins) : Bool := p.cmdValid && s.cmdReady p

/-- Reset: STATE to its reset value, a command accepted but not answered dropped, the port emptied
(R210, R211). -/
def State.resetCore (s : State) : State := { s with STATE := 0x00000001#32, cmd := none, rsp := none }

/-- The command word `c` is accepted and held by the port (R31, R214). -/
def State.acceptCommand (c : CmdWord) (s : State) : State := { s with cmd := some c }

/-- The host takes the response `r`, and the port is empty again (R31, R214). A status no core produces
would be observed here (R70; 93_implementation_defined.md item 8). -/
def takeResponse (r : RspWord) (s : State) : Host.Outcome State Fault Refusal :=
  if statusNamed r then .next { s with cmd := none, rsp := none, taken := s.taken ++ [r] }
  else .fault .reservedStatus

/-- A reserved opcode: ILLEGAL_OP before any other check, STATE neither read nor written (R66, R183,
R185). -/
def execReserved (s : State) : Host.Outcome State Fault Refusal := raise .illegalOp s

/-- The accepted command is performed as one atomic step (R215, R219). -/
def performCommand (c : CmdWord) (s : State) : Host.Outcome State Fault Refusal :=
  match decode c with
  | .instr i => exec i s
  | .reserved _ => execReserved s

/-- What the core does at one step with the input pins `p`: reset; or a pending response is taken or
kept stable; or the accepted command is performed; or a command is accepted; or the core waits
(R210 to R215). -/
def portStep (p : Pins) (s : State) : Host.Outcome State Fault Refusal :=
  if p.rst then .next s.resetCore
  else
    match s.rsp, s.cmd with
    | some r, _ => if p.rspReady then takeResponse r s else .next s
    | none, some c => performCommand c s
    | none, none => if p.cmdValid then .next (s.acceptCommand p.cmd) else .next s

/-- The machine with the command word `c` accepted and performed by the very next step. The model's choice
(DESIGN CHOICE, notes/assumptions/7.md): a response still pending is taken first, as `cmd_ready` needs
(R214); a command accepted and not yet answered is overwritten and gets no response, so R215 holds only
where the word is placed on a port that holds none; the pins of that step ask for nothing. -/
def State.withAccepted (c : CmdWord) (s : State) : State :=
  { s with cmd := some c, rsp := none, host := Pins.quiet :: s.host, taken := s.taken ++ s.rsp.toList }

end Sys2Proof.Machine
end

