-- ==== Sys2Proof/Machine/Step.lean ====
section
/-! DEFINITION. One step of the machine, and the machine with a command word where the next step takes
it from. -/

namespace Sys2Proof.Machine

/-- One step: the port's step on the input pins the host drives (R214, R215, R219). -/
def step (s : State) : Host.Outcome State Fault Refusal := portStep s.pins s.nextPins

/-- `s` with the command word of a table row accepted, so that the next step performs it
(notes/assumptions/7.md). -/
def State.withFetchWord (s : State) (nbits w : Nat) : State := s.withAccepted (tableWord nbits w)

end Sys2Proof.Machine
end

