-- ==== Sys2Proof/Machine/Assembler.lean ====
section
/-! DEFINITION. The assembler and the disassembler of XS32-CMD (30_encoding.md R71 to R74). It is a tool
beside the machine: the step uses nothing of this file. Text is a list of characters. -/

namespace Sys2Proof.Machine

/-- One command as the assembler's syntax has it (R71), the pseudo-instruction `INIT` without an operand
included (R72). -/
inductive Asm
  | init (n : Option Int)
  | advance
  | range (m n : Int)
  | float
  | save
  | restore (n : Int)
deriving DecidableEq, Repr

/-- What a command word disassembles to: a line of R71, or `.cmd` for a reserved opcode (R74). -/
inductive Disasm
  | line (a : Asm)
  | raw (w : CmdWord)
deriving DecidableEq, Repr

/-- The command word of a line, or none where the assembler refuses the operand: INIT masks any integer,
RESTORE takes 0 to 2^32 - 1, RANGE takes signed 32-bit integers and does not check m < n (R72, R73). -/
def assemble : Asm → Option CmdWord
  | .init none => some (encode (.init 1))
  | .init (some n) => some (encode (.init (u32 n)))
  | .advance => some (encode .advance)
  | .range m n => if fitsS32 m && fitsS32 n then some (encode (.range m n)) else none
  | .float => some (encode .float)
  | .save => some (encode .save)
  | .restore n => if 0 ≤ n ∧ n ≤ 2 ^ 32 - 1 then some (encode (.restore (u32 n))) else none

/-- The line a command prints as: ignored fields left out, the operands of RANGE signed (R74); those of
INIT and RESTORE unsigned (notes/assumptions/13.md). -/
def lineOf : Instr → Asm
  | .init seed => .init (some seed.toNat)
  | .advance => .advance
  | .range min max => .range min max
  | .float => .float
  | .save => .save
  | .restore value => .restore value.toNat

/-- Disassembly of a command word (R74). -/
def disassemble (w : CmdWord) : Disasm :=
  match decode w with
  | .instr i => .line (lineOf i)
  | .reserved _ => .raw w

/-! ### Printing -/

/-- The digit `d` < 16 as a character. -/
def digitChar (d : Nat) : Char := if d < 10 then Char.ofNat (48 + d) else Char.ofNat (55 + d)

/-- The decimal digits of `n` before `acc`; `fuel` bounds their number. -/
def decimalOnto : Nat → Nat → List Char → List Char
  | 0, _, acc => acc
  | fuel + 1, n, acc =>
    if n < 10 then digitChar n :: acc else decimalOnto fuel (n / 10) (digitChar (n % 10) :: acc)

/-- `n` in decimal. -/
def showNat (n : Nat) : List Char := decimalOnto (n + 1) n []

/-- `n` in decimal, with a minus sign where it is negative (R71). -/
def showInt (n : Int) : List Char := if n < 0 then '-' :: showNat n.natAbs else showNat n.natAbs

/-- The `k` low hexadecimal digits of `n` before `acc`. -/
def hexOnto : Nat → Nat → List Char → List Char
  | 0, _, acc => acc
  | k + 1, n, acc => hexOnto k (n / 16) (digitChar (n % 16) :: acc)

def kwInit : List Char := ['I', 'N', 'I', 'T']
def kwAdvance : List Char := ['A', 'D', 'V', 'A', 'N', 'C', 'E']
def kwRange : List Char := ['R', 'A', 'N', 'G', 'E']
def kwFloat : List Char := ['F', 'L', 'O', 'A', 'T']
def kwSave : List Char := ['S', 'A', 'V', 'E']
def kwRestore : List Char := ['R', 'E', 'S', 'T', 'O', 'R', 'E']

/-- A command as a line of text (R71). -/
def showAsm : Asm → List Char
  | .init none => kwInit
  | .init (some n) => kwInit ++ ' ' :: showInt n
  | .advance => kwAdvance
  | .range m n => kwRange ++ ' ' :: showInt m ++ ',' :: ' ' :: showInt n
  | .float => kwFloat
  | .save => kwSave
  | .restore n => kwRestore ++ ' ' :: showInt n

/-- A command word as `0x<B>_<A>_<op>`, 8, 8 and 2 hexadecimal digits (R60). -/
def showCmdWord (w : CmdWord) : List Char :=
  '0' :: 'x' :: hexOnto 8 (bOf w).toNat ('_' :: hexOnto 8 (aOf w).toNat ('_' :: hexOnto 2 (opOf w).toNat []))

/-- The printed disassembly (R74). -/
def showDisasm : Disasm → List Char
  | .line a => showAsm a
  | .raw w => '.' :: 'c' :: 'm' :: 'd' :: ' ' :: showCmdWord w

/-! ### Reading -/

/-- The value of a digit of base `base` ≤ 16, in either letter case. -/
def digitValue (base : Nat) (c : Char) : Option Nat :=
  let k := c.toNat
  let d :=
    if 48 ≤ k ∧ k ≤ 57 then k - 48
    else if 65 ≤ k ∧ k ≤ 70 then k - 55
    else if 97 ≤ k ∧ k ≤ 102 then k - 87
    else 16
  if d < base then some d else none

/-- The digits of `cs` read on from the value `acc`. -/
def digitsFrom (base : Nat) : Nat → List Char → Option Nat
  | acc, [] => some acc
  | acc, c :: cs =>
    match digitValue base c with
    | some d => digitsFrom base (acc * base + d) cs
    | none => none

/-- A non-empty run of digits. -/
def readNat (base : Nat) (cs : List Char) : Option Nat :=
  match cs with
  | [] => none
  | _ :: _ => digitsFrom base 0 cs

/-- `int := ['-'] decimal-digits | '0x' hex-digits` (R71). -/
def readInt : List Char → Option Int
  | '-' :: ds => (readNat 10 ds).map fun n => -(n : Int)
  | '0' :: 'x' :: ds => (readNat 16 ds).map Int.ofNat
  | ds => (readNat 10 ds).map Int.ofNat

/-- A word read so far, its last character first, ends here. -/
def endToken (rev : List Char) (rest : List (List Char)) : List (List Char) :=
  if rev.isEmpty then rest else rev.reverse :: rest

/-- The tokens of a line: words between blanks, and each comma by itself; a `;` ends the line (R71).
`rev` is the word being read, its last character first. -/
def tokens : List Char → List Char → List (List Char)
  | rev, [] => endToken rev []
  | rev, c :: cs =>
    if c = ';' then endToken rev []
    else if c = ' ' ∨ c = '\t' then endToken rev (tokens [] cs)
    else if c = ',' then endToken rev ([','] :: tokens [] cs)
    else tokens (c :: rev) cs

/-- A command from the tokens of its line (R71, R72). -/
def readCommand : List (List Char) → Option Asm
  | [k] =>
    if k = kwInit then some (.init none)
    else if k = kwAdvance then some .advance
    else if k = kwFloat then some .float
    else if k = kwSave then some .save
    else none
  | [k, n] =>
    if k = kwInit then (readInt n).map fun n => .init (some n)
    else if k = kwRestore then (readInt n).map .restore
    else none
  | [k, m, c, n] =>
    if k = kwRange ∧ c = [','] then
      match readInt m, readInt n with
      | some m, some n => some (.range m n)
      | _, _ => none
    else none
  | _ => none

/-- One line of assembly: none where it is no line of R71, `some none` where it holds no command. -/
def readLine (cs : List Char) : Option (Option Asm) :=
  match tokens [] cs with
  | [] => some none
  | t :: ts => (readCommand (t :: ts)).map some

end Sys2Proof.Machine
end

