-- ==== Sys2Proof/Machine/Platform.lean ====
section
/-! DEFINITION. What stands around a core: the independent instances of a platform (00_scope.md R13,
10_state.md R32, 20_memory.md R52, 60_exceptions.md R195) and the bytes a host may serialize a saved STATE
to (R12, R41). -/

namespace Sys2Proof.Machine

/-- The instances of a platform, each with its own state (R32). -/
abbrev Platform := List State

/-- INSTANCE_COUNT instances right after reset (R13, R33). -/
def Platform.reset : Platform := List.replicate Config.instanceCount State.reset

/-- Instance `k` takes one step. Which instance moves next is the platform's choice; a number that names
no instance moves none. -/
def Platform.stepAt (k : Nat) (P : Platform) : Host.Outcome Platform Fault Refusal :=
  match P[k]? with
  | none => .next P
  | some s =>
    match step s with
    | .next t => .next (P.set k t)
    | .fault f => .fault f
    | .refused r => .refused r

/-- A saved STATE as bytes in the order `order`, at rising positions (R12: host-side). -/
def persistBytes (order : ByteOrder) (v : Word) : List Byte :=
  let le := [v.extractLsb' 0 8, v.extractLsb' 8 8, v.extractLsb' 16 8, v.extractLsb' 24 8]
  match order with
  | .little => le
  | .big => le.reverse

/-- The STATE that four bytes in the order `order` stand for; none for another number of bytes. -/
def persistedWord (order : ByteOrder) : List Byte → Option Word
  | [b0, b1, b2, b3] =>
    match order with
    | .little => some (b3 ++ b2 ++ b1 ++ b0)
    | .big => some (b0 ++ b1 ++ b2 ++ b3)
  | _ => none

/-- The bytes this platform's host writes: in the order PERSIST_BYTE_ORDER, which is OPEN (R12). -/
def hostPersistBytes (v : Word) : List Byte := persistBytes Config.persistByteOrder v

end Sys2Proof.Machine
end

