-- ==== Sys2Proof/Safety.lean ====
section
/-! DEFINITION. The terms claims are stated in: the transaction-level step and run of 70_reset_and_hazards.md
R219 written over raw words, the host's side of the port, the invariant of the port, and the value of a
binary64 encoding. -/

namespace Sys2Proof.Machine

/-! ### The transaction level (R219) -/

/-- The core's step from (STATE, command word) to (STATE', response word), read off R66, R69, R90, R105,
R121, R141, R160, R161 with no port, no decoder and no machine state. -/
def transact (st : Word) (c : CmdWord) : Word × RspWord :=
  let op := c.extractLsb' 0 8
  let a : Word := c.extractLsb' 8 32
  let b : Word := c.extractLsb' 40 32
  let err (code : Byte) : Word × RspWord := (st, 0#64 ++ code)
  let adv (data : Word → Data) : Word × RspWord := if st = 0 then err 0x01#8 else (T st, data (T st) ++ 0x00#8)
  if op = 0x01#8 ∨ op = 0x06#8 then (a, 0)
  else if op = 0x02#8 then adv (·.setWidth 64)
  else if op = 0x03#8 then
    if b.toInt ≤ a.toInt then err 0x02#8
    else adv fun v => BitVec.ofInt 64 (a.toInt + (v.toNat : Int) % (b.toInt - a.toInt))
  else if op = 0x04#8 then adv FSbits
  else if op = 0x05#8 then (st, st.setWidth 64 ++ 0x00#8)
  else err 0x03#8

/-- A run of R219: from a start STATE over command words, the final STATE and the responses in order. -/
def runOf (st : Word) : List CmdWord → Word × List RspWord
  | [] => (st, [])
  | c :: cs =>
    let (st', r) := transact st c
    let (fin, rs) := runOf st' cs
    (fin, r :: rs)

/-! ### The host's side of the port (R214) -/

/-- Input pins that present nothing, with the given `rsp_ready`. -/
def Pins.idle (ready : Bool) : Pins := { rst := false, cmdValid := false, cmd := 0, rspReady := ready }

/-- Input pins that present the command `c`, with the given `rsp_ready`. -/
def Pins.offer (c : CmdWord) (ready : Bool) : Pins := { rst := false, cmdValid := true, cmd := c, rspReady := ready }

/-- How a host sends one command. -/
structure Delivery where
  /-- in how many of the last steps before the port is empty again the command is already presented,
  while the command before it is outstanding -/
  early : Nat
  /-- if not presented early: the steps with nothing presented before it -/
  idle : Nat
  cmd : CmdWord
  /-- the steps in which the response is pending and not taken -/
  stall : Nat
  /-- `rsp_ready` in the steps in which no response is pending for it yet -/
  ready : Bool
deriving DecidableEq, Repr

/-- `rsp_ready` from the step that performs the command to the step that takes its response. -/
def Delivery.busyReady (d : Delivery) : List Bool := d.ready :: List.replicate d.stall false ++ [true]

/-- The steps with nothing presented before the command. -/
def Delivery.lead (d : Delivery) : List Pins :=
  if d.early = 0 then List.replicate d.idle (Pins.idle d.ready) else []

/-- Input pins with the given `rsp_ready`, and the command `c` presented in the last `e` of them. -/
def presentLast (e : Nat) (c : CmdWord) : List Bool → List Pins
  | [] => []
  | r :: rs => { rst := false, cmdValid := decide (rs.length < e), cmd := c, rspReady := r } :: presentLast e c rs

/-- The input pins of a sequence of deliveries: each command presented at the step that accepts it, and,
where it comes early, before that while the port is busy with the one before. -/
def hostScript : List Delivery → List Pins
  | [] => []
  | d :: ds =>
    d.lead ++ Pins.offer d.cmd d.ready ::
      (presentLast (ds.head?.elim 0 Delivery.early) (ds.head?.elim 0 Delivery.cmd) d.busyReady ++ hostScript ds)

/-- The port is empty: no command accepted, no response pending (R34, R211). -/
def State.portEmpty (s : State) : Prop := s.cmd = none ∧ s.rsp = none

/-- What the host owes the port at this step: a command presented and not accepted is presented again,
the same word. R214 asks that `cmd` stay stable while `cmd_valid = 1`; that `cmd_valid` stays 1 too is the
model's choice (DESIGN CHOICE, notes/assumptions/10.md), R214 does not say it. -/
def State.hostHoldsCommand (s : State) : Prop :=
  s.pins.cmdValid = true → s.accepts s.pins = false →
    s.nextPins.pins.cmdValid = true ∧ s.nextPins.pins.cmd = s.pins.cmd

/-! ### What a run accepts (R214, R219) -/

/-- The command words accepted in the first `n` steps from `s`, in order. -/
def acceptedIn : Nat → State → List CmdWord
  | 0, _ => []
  | n + 1, s =>
    (if s.accepts s.pins then [s.pins.cmd] else []) ++
      match step s with
      | .next t => acceptedIn n t
      | .fault _ => []
      | .refused _ => []

/-- Of the command words `cs` accepted on the way to `s`, those already performed: all but the one the port
holds without a response (R215). -/
def State.performed (s : State) (cs : List CmdWord) : List CmdWord :=
  if s.cmd.isSome && s.rsp.isNone then cs.dropLast else cs

/-! ### The invariant of the port -/

/-- `r` answers the command word `c`, and `st` is STATE after it (R66, R69, R70, R90, R105, R121, R141,
R160, R161). -/
def Answers (c : CmdWord) (st : Word) (r : RspWord) : Prop :=
  match decode c with
  | .reserved _ => r = rspWord .illegalOp 0
  | .instr (.init seed) => st = seed ∧ r = rspWord .ok 0
  | .instr .advance => r = rspWord .ok (zext64 st) ∨ (st = 0 ∧ r = rspWord .invalidState 0)
  | .instr (.range min max) =>
      (max ≤ min ∧ r = rspWord .invalidRange 0) ∨
      (min < max ∧ r = rspWord .ok (sext64 (u32 (RS st min max)))) ∨
      (min < max ∧ st = 0 ∧ r = rspWord .invalidState 0)
  | .instr .float => r = rspWord .ok (FSbits st) ∨ (st = 0 ∧ r = rspWord .invalidState 0)
  | .instr .save => r = rspWord .ok (zext64 st)
  | .instr (.restore value) => st = value ∧ r = rspWord .ok 0

/-- A response word as R62 and R70 allow it: a named status, and data 0 on every error. -/
def RspLegal (r : RspWord) : Prop := (rspStatus r).toNat ≤ 3 ∧ (rspStatus r ≠ 0 → rspData r = 0)

/-- A response is pending only for a command the port holds, and it answers that command with STATE as
it now is (R31, R46, R215); every response the host has taken is legal (R62, R70). -/
structure State.Inv (s : State) : Prop where
  held : s.cmd = none → s.rsp = none
  answered : ∀ c r, s.cmd = some c → s.rsp = some r → Answers c s.STATE r
  takenLegal : ∀ r ∈ s.taken, RspLegal r

/-! ### Values of binary64 encodings (R17) -/

/-- The encoding is of a finite number: its exponent field is not all ones. -/
def f64Finite (b : Data) : Prop := (b.extractLsb' 52 11).toNat ≠ 0x7FF

/-- The number a finite binary64 encoding stands for: sign in bit 63, exponent in 62:52, fraction in
51:0 (R17; 93_implementation_defined.md G3). -/
def f64Value (b : Data) : ℚ :=
  let sign : ℚ := if b.msb then -1 else 1
  let e := (b.extractLsb' 52 11).toNat
  let f := (b.extractLsb' 0 52).toNat
  if e = 0 then sign * (f : ℚ) / 2 ^ 1074
  else sign * (2 ^ 52 + f : ℚ) * 2 ^ e / 2 ^ 1075

end Sys2Proof.Machine
end

