-- ==== Sys2Proof/Certificates/Slice0/Obligations.lean ====
section
/-! DEFINITION. The statements for the provers. Each docstring names the rule of spec/ it formalises. -/

open Sys2Proof Sys2Proof.Machine

/-! ### The six commands, each with its full next state -/

/-- R90. -/
def Obligations.InitLoadsItsSeed : Prop :=
  (∀ c : CmdWord, c.extractLsb' 0 8 = 0x01#8 → decode c = .instr (.init (c.extractLsb' 8 32))) ∧
  ∀ (seed : Word) (s : State),
    exec (.init seed) s = .next { s with STATE := seed, rsp := some (0#64 ++ 0x00#8) }

/-- R105, by the procedure of R104. -/
def Obligations.AdvanceStepsALiveGenerator : Prop :=
  (∀ c : CmdWord, c.extractLsb' 0 8 = 0x02#8 → decode c = .instr .advance) ∧
  (∀ s : State, s.STATE ≠ 0 →
    exec .advance s = .next { s with STATE := T s.STATE, rsp := some ((T s.STATE).setWidth 64 ++ 0x00#8) }) ∧
  (∀ s : State, s.STATE = 0 → exec .advance s = .next { s with rsp := some (0#64 ++ 0x01#8) })

/-- R121, R124, R125: the range check first, on the signed operands; then the advance. -/
def Obligations.RangeChecksThenAdvances : Prop :=
  (∀ c : CmdWord, c.extractLsb' 0 8 = 0x03#8 →
    decode c = .instr (.range (c.extractLsb' 8 32).toInt (c.extractLsb' 40 32).toInt)) ∧
  (∀ (min max : Int) (s : State), max ≤ min →
    exec (.range min max) s = .next { s with rsp := some (0#64 ++ 0x02#8) }) ∧
  (∀ (min max : Int) (s : State), min < max → s.STATE = 0 →
    exec (.range min max) s = .next { s with rsp := some (0#64 ++ 0x01#8) }) ∧
  (∀ (min max : Int) (s : State), min < max → s.STATE ≠ 0 →
    exec (.range min max) s = .next { s with
      STATE := T s.STATE
      rsp := some ((BitVec.ofInt 32 (min + ((T s.STATE).toNat : Int) % (max - min))).signExtend 64 ++ 0x00#8) })

/-- R141, with FS(v) = f64_div(v, 4294967295) of R140. That `f64DivBits` is the nearest binary64:
`FloatSampleIsNearest` and the statements after it. -/
def Obligations.FloatAnswersTheFloatSample : Prop :=
  (∀ c : CmdWord, c.extractLsb' 0 8 = 0x04#8 → decode c = .instr .float) ∧
  (∀ s : State, s.STATE ≠ 0 →
    exec .float s = .next { s with
      STATE := T s.STATE
      rsp := some (f64DivBits (T s.STATE).toNat 4294967295 ++ 0x00#8) }) ∧
  (∀ s : State, s.STATE = 0 → exec .float s = .next { s with rsp := some (0#64 ++ 0x01#8) })

/-- R160. -/
def Obligations.SaveReturnsState : Prop :=
  (∀ c : CmdWord, c.extractLsb' 0 8 = 0x05#8 → decode c = .instr .save) ∧
  ∀ s : State, exec .save s = .next { s with rsp := some (s.STATE.setWidth 64 ++ 0x00#8) }

/-- R161. -/
def Obligations.RestoreOverwritesState : Prop :=
  (∀ c : CmdWord, c.extractLsb' 0 8 = 0x06#8 → decode c = .instr (.restore (c.extractLsb' 8 32))) ∧
  ∀ (value : Word) (s : State),
    exec (.restore value) s = .next { s with STATE := value, rsp := some (0#64 ++ 0x00#8) }

/-- R66, R183. -/
def Obligations.ReservedOpcodeAnswersIllegalOp : Prop :=
  ∀ (c : CmdWord) (s : State), c.extractLsb' 0 8 = 0x00#8 ∨ 0x07#8 ≤ c.extractLsb' 0 8 →
    performCommand c s = .next { s with rsp := some (0#64 ++ 0x03#8) }

/-- 40_construction.md R94, which the spec marks derived. -/
def Obligations.InitAndRestoreHaveOneEffect : Prop :=
  ∀ (v : Word) (s : State), exec (.init v) s = exec (.restore v) s

/-! ### The transform T -/

/-- R100 to R103, with the bit formula of R102 for the arithmetic shift. -/
def Obligations.TransformIsThreeXorShifts : Prop :=
  ∀ x : Word, T x =
    let x1 := x ^^^ (x <<< 13)
    let x2 := x1 ^^^ ((if x1.getLsbD 31 then BitVec.allOnes 17 else 0#17) ++ x1.extractLsb' 17 15)
    x2 ^^^ (x2 <<< 5)

/-- 00_scope.md R16 (93_implementation_defined.md G2): the arithmetic shift is the floor of the signed quotient. -/
def Obligations.ArithmeticShiftIsFloorOfSignedQuotient : Prop :=
  ∀ (x : Word) (n : Nat), n < 32 → (sar x n).toInt = Int.floor ((x.toInt : ℚ) / 2 ^ n)

/-- 41_advance.md section 3 (R107): the outer steps are bijections, and bit 31 of S2 is always 0. -/
def Obligations.OuterStepsAreBijections : Prop :=
  ∀ x : Word, S1inv (S1 x) = x ∧ S1 (S1inv x) = x ∧ S3inv (S3 x) = x ∧ S3 (S3inv x) = x ∧
    (S2 x).getLsbD 31 = false

/-- 41_advance.md section 3 (R107): each value with bit 31 of its S3 preimage clear is reached from
exactly two states, every other value from none. -/
def Obligations.TransformIsTwoToOne : Prop :=
  ∀ z : Word,
    ((S3inv z).getLsbD 31 = false →
      ∃ x y, x ≠ y ∧ T x = z ∧ T y = z ∧ ∀ w, T w = z → w = x ∨ w = y) ∧
    ((S3inv z).getLsbD 31 = true → ∀ x, T x ≠ z)

/-- 41_advance.md section 3 (R108): the wrong, logical shift differs by 0x000F8000 where bit 31 of S1 is
set, and nowhere else. -/
def Obligations.LogicalShiftWouldDiffer : Prop :=
  ∀ x : Word, T x = if (S1 x).getLsbD 31 then TL x ^^^ 0x000F8000#32 else TL x

/-- 41_advance.md section 3 (R106, R109): exactly 0 and 0xFC001FFF advance to 0. -/
def Obligations.OnlyTwoStatesAdvanceToZero : Prop :=
  ∀ x : Word, T x = 0 ↔ x = 0 ∨ x = 0xFC001FFF#32

/-- 41_advance.md section 3 (R110): the largest value of T and the two states it is reached from. -/
def Obligations.LargestTransformOutput : Prop :=
  ∀ x : Word, (T x).toNat ≤ 0xFFFFFFFD ∧ (T x = 0xFFFFFFFD#32 ↔ x = 0x4707E94A#32 ∨ x = 0xBB07F6B5#32)

/-! ### The samplers -/

/-- 42_ranged_sampler.md (R122, derived there): with operands that fit 32 bits no step overflows and the
result, read from the response data as a signed number, lies in [min, max). -/
def Obligations.RangeResultLiesInItsRange : Prop :=
  ∀ (min max : Int) (s : State), (Instr.range min max).wf = true → min < max → s.STATE ≠ 0 →
    (1 ≤ max - min ∧ max - min ≤ 2 ^ 32 - 1) ∧
    ∃ t r, exec (.range min max) s = .next t ∧ t.rsp = some r ∧ rspStatus r = 0x00#8 ∧
      (rspData r).toInt = min + ((T s.STATE).toNat : Int) % (max - min) ∧
      min ≤ (rspData r).toInt ∧ (rspData r).toInt < max

/-- 42_ranged_sampler.md (R123): over all 2^32 values of v, each result below `min + 2^32 mod W` occurs
once more often than each other result; no rejection, no rescaling. -/
def Obligations.RangedSamplerBias : Prop :=
  ∀ (min max : Int) (k : Nat), min < max → max - min ≤ 2 ^ 32 - 1 → (k : Int) < max - min →
    Nat.count (fun v => RS (BitVec.ofNat 32 v) min max = min + k) (2 ^ 32) =
      2 ^ 32 / (max - min).toNat + if k < 2 ^ 32 % (max - min).toNat then 1 else 0

/-- 43_float_sampler.md R140 (its binary64: 93_implementation_defined.md G3): FS(v) is the binary64 value nearest to v / 4294967295. -/
def Obligations.FloatSampleIsNearest : Prop :=
  ∀ v : Word, f64Finite (FSbits v) ∧ ∀ b : Data, f64Finite b →
    |f64Value (FSbits v) - (v.toNat : ℚ) / 4294967295| ≤ |f64Value b - (v.toNat : ℚ) / 4294967295|

/-- 43_float_sampler.md (R142, derived there): the exact quotient is never halfway between two
neighbouring binary64 values, so ties to even is never used. -/
def Obligations.FloatQuotientIsNeverATie : Prop :=
  ∀ (v : Word) (a b : Data), f64Finite a → f64Finite b → f64Value a < f64Value b →
    (∀ d : Data, f64Finite d → f64Value d ≤ f64Value a ∨ f64Value b ≤ f64Value d) →
    2 * ((v.toNat : ℚ) / 4294967295) ≠ f64Value a + f64Value b

/-- 43_float_sampler.md (R142, derived there). -/
def Obligations.FloatSampleIsStrictlyIncreasing : Prop :=
  ∀ v w : Word, v.toNat < w.toNat → f64Value (FSbits v) < f64Value (FSbits w)

/-- 43_float_sampler.md (R142, derived there): FS lies in [0, 1], is never negative zero, infinite or
NaN, and its ends are +0.0 and exactly 1.0. -/
def Obligations.FloatSampleBounds : Prop :=
  FSbits 0 = 0x0000000000000000#64 ∧ FSbits 0xFFFFFFFF#32 = 0x3FF0000000000000#64 ∧
  ∀ v : Word, f64Finite (FSbits v) ∧ (FSbits v).msb = false ∧
    0 ≤ f64Value (FSbits v) ∧ f64Value (FSbits v) ≤ 1

/-- 43_float_sampler.md (R143, derived there; 90_conflicts.md C2, C3): FLOAT answers in [0, 1); its
largest result is 0x3FEFFFFFFFC00000, and +0.0 comes from 0xFC001FFF only. -/
def Obligations.FloatCommandStaysBelowOne : Prop :=
  ∀ s : State, s.STATE ≠ 0 → ∃ t r, exec .float s = .next t ∧ t.rsp = some r ∧ rspStatus r = 0x00#8 ∧
    0 ≤ f64Value (rspData r) ∧ f64Value (rspData r) < 1 ∧
    (rspData r).toNat ≤ 0x3FEFFFFFFFC00000 ∧
    (rspData r = 0 ↔ s.STATE = 0xFC001FFF#32)

/-! ### All commands together -/

/-- R184: a command that answers with an error changes nothing but the response; and the response's data is
0 (60_exceptions.md R180). -/
def Obligations.ErrorsChangeNothingAndCarryNoData : Prop :=
  ∀ (c : CmdWord) (s t : State) (r : RspWord), performCommand c s = .next t → t.rsp = some r →
    rspStatus r ≠ 0x00#8 → t = { s with rsp := some r } ∧ rspData r = 0

/-- R185: every command word from every state gets one response with the first status that applies:
ILLEGAL_OP, then INVALID_RANGE, then INVALID_STATE, else OK. -/
def Obligations.StatusFollowsTheErrorPriority : Prop :=
  ∀ (c : CmdWord) (s : State), ∃ t r, performCommand c s = .next t ∧ t.rsp = some r ∧
    rspStatus r =
      if opOf c = 0x00#8 ∨ 0x07#8 ≤ opOf c then 0x03#8
      else if opOf c = 0x03#8 ∧ s32 (bOf c) ≤ s32 (aOf c) then 0x02#8
      else if (opOf c = 0x02#8 ∨ opOf c = 0x03#8 ∨ opOf c = 0x04#8) ∧ s.STATE = 0 then 0x01#8
      else 0x00#8

/-- 10_state.md R23: what each command writes to STATE, and which commands do not read it. -/
def Obligations.AccessToStateByCommand : Prop :=
  (∀ (c : CmdWord) (s : State), ∃ t, performCommand c s = .next t ∧ t.STATE =
    if opOf c = 0x01#8 ∨ opOf c = 0x06#8 then aOf c
    else if (opOf c = 0x02#8 ∨ opOf c = 0x04#8 ∨ opOf c = 0x03#8 ∧ s32 (aOf c) < s32 (bOf c)) ∧
      s.STATE ≠ 0 then T s.STATE
    else s.STATE) ∧
  (∀ (c : CmdWord), opOf c = 0x00#8 ∨ 0x07#8 ≤ opOf c ∨ opOf c = 0x01#8 ∨ opOf c = 0x06#8 ∨
      opOf c = 0x03#8 ∧ s32 (bOf c) ≤ s32 (aOf c) →
    ∃ r : RspWord, ∀ s : State, ∃ t, performCommand c s = .next t ∧ t.rsp = some r)

/-- 10_state.md R31 and 20_memory.md R46: what a command answers and leaves in STATE depends on STATE and
the command word alone. -/
def Obligations.OnlyStateAndCommandDecideTheAnswer : Prop :=
  ∀ (c : CmdWord) (s s' : State), s.STATE = s'.STATE → ∃ (v : Word) (r : RspWord),
    performCommand c s = .next { s with STATE := v, rsp := some r } ∧
    performCommand c s' = .next { s' with STATE := v, rsp := some r }

/-- 60_exceptions.md section 2: no command touches the command the port holds, the host's pins or the
responses taken. -/
def Obligations.CommandsLeaveThePortAlone : Prop :=
  ∀ (i : Instr) (s t : State), exec i s = .next t →
    t.cmd = s.cmd ∧ t.host = s.host ∧ t.taken = s.taken ∧ t.rsp.isSome = true

/-- 70_reset_and_hazards.md section 4 (R217, derived there) and 10_state.md R26: a Live generator turns
Invalid exactly by INIT or RESTORE with 0, or by an advance from 0xFC001FFF. -/
def Obligations.WaysFromLiveToInvalid : Prop :=
  ∀ (c : CmdWord) (s t : State), s.isLive = true → performCommand c s = .next t →
    (t.isInvalid = true ↔
      (opOf c = 0x01#8 ∨ opOf c = 0x06#8) ∧ aOf c = 0#32 ∨
      (opOf c = 0x02#8 ∨ opOf c = 0x04#8 ∨ opOf c = 0x03#8 ∧ s32 (aOf c) < s32 (bOf c)) ∧
        s.STATE = 0xFC001FFF#32)

/-- R187: INIT or RESTORE with a nonzero value makes an Invalid generator Live, and an advance then
succeeds. -/
def Obligations.RecoveryFromInvalidByCommand : Prop :=
  ∀ (v : Word) (s : State), v ≠ 0 → s.isInvalid = true →
    ∀ i ∈ [Instr.init v, Instr.restore v], ∃ t u, exec i s = .next t ∧ t.isLive = true ∧
      exec .advance t = .next u ∧ u.rsp = some ((T v).setWidth 64 ++ 0x00#8)

/-! ### Encoding -/

/-- R60, R61: the fields of a command word, bit by bit. -/
def Obligations.FieldsOfACommandWord : Prop :=
  ∀ c : CmdWord,
    (∀ i, i < 8 → (opOf c).getLsbD i = c.getLsbD i) ∧
    (∀ i, i < 32 → (aOf c).getLsbD i = c.getLsbD (8 + i)) ∧
    (∀ i, i < 32 → (bOf c).getLsbD i = c.getLsbD (40 + i)) ∧
    cmdWord (opOf c) (aOf c) (bOf c) = c

/-- 30_encoding.md R62, R70: a response word is its data above its status, and the status codes are 0 to 3. -/
def Obligations.FieldsOfAResponseWord : Prop :=
  (∀ r : RspWord, r.toNat = (rspData r).toNat * 2 ^ 8 + (rspStatus r).toNat) ∧
  (∀ (st : Status) (d : Data), rspStatus (rspWord st d) = statusCode st ∧ rspData (rspWord st d) = d) ∧
  statusCode .ok = 0x00#8 ∧ statusCode .invalidState = 0x01#8 ∧ statusCode .invalidRange = 0x02#8 ∧
  statusCode .illegalOp = 0x03#8

/-- 00_scope.md R15 (its two's complement: 93_implementation_defined.md G1): the widths and readings of a 32-bit pattern. -/
def Obligations.ReadingsOfAPattern : Prop :=
  (∀ v : Word, s32 v = if v.getLsbD 31 then (v.toNat : Int) - (2 : Int) ^ 32 else (v.toNat : Int)) ∧
  (∀ n : Int, ((u32 n).toNat : Int) = n % 2 ^ 32) ∧
  (∀ v : Word, (zext64 v).toNat = v.toNat) ∧
  (∀ v : Word, (sext64 v).toInt = s32 v)

/-- 30_encoding.md R60 to R65, R73: decoding an encoded well-formed command gives it back, every operand
at every value. -/
def Obligations.DecodeInvertsEncode : Prop :=
  ∀ i : Instr, i.wf = true → decode (encode i) = .instr i

/-- 30_encoding.md R64, R65, R73: whatever decodes is well formed, and its own word has the same opcode. -/
def Obligations.DecodedCommandsAreWellFormed : Prop :=
  ∀ (c : CmdWord) (i : Instr), decode c = .instr i →
    i.wf = true ∧ opOf (encode i) = opOf c ∧ decode (encode i) = decode c

/-- R68: the operand fields a command ignores do not matter, and an assembler writes zeros there. -/
def Obligations.IgnoredFieldsDoNotMatter : Prop :=
  (∀ (c d : CmdWord), opOf c = opOf d →
    (opOf c = 0x01#8 ∨ opOf c = 0x03#8 ∨ opOf c = 0x06#8 → aOf c = aOf d) →
    (opOf c = 0x03#8 → bOf c = bOf d) →
    decode c = decode d ∧ ∀ s : State, performCommand c s = performCommand d s) ∧
  (∀ i ∈ [Instr.advance, Instr.float, Instr.save], aOf (encode i) = 0 ∧ bOf (encode i) = 0) ∧
  ∀ v : Word, bOf (encode (.init v)) = 0 ∧ bOf (encode (.restore v)) = 0

/-- 30_encoding.md R66: exactly the opcodes 0x00 and 0x07 to 0xFF are reserved. -/
def Obligations.ReservedOpcodesExactly : Prop :=
  ∀ c : CmdWord, (∃ op, decode c = .reserved op) ↔
    (opOf c).toNat = 0 ∨ 7 ≤ (opOf c).toNat

/-- 30_encoding.md section 5 (R75, derived there): every row of its table of examples, assembled and
decoded; and section 3 (R66): the all-zero word is reserved. -/
def Obligations.ExampleWordsDecode : Prop :=
  (assemble (.init (some 123456)) = some 0x000000000001E24001#72 ∧
    assemble (.init none) = some 0x000000000000000101#72 ∧
    assemble (.init (some (-1))) = some 0x00000000FFFFFFFF01#72 ∧
    assemble .advance = some 0x000000000000000002#72 ∧
    assemble (.range 1 3) = some 0x000000030000000103#72 ∧
    assemble (.range (-10) (-5)) = some 0xFFFFFFFBFFFFFFF603#72 ∧
    assemble .float = some 0x000000000000000004#72 ∧
    assemble .save = some 0x000000000000000005#72 ∧
    assemble (.restore 561134079) = some 0x00000000217239FF06#72) ∧
  decode 0x000000000001E24001#72 = .instr (.init 123456) ∧
  decode 0x000000000000000101#72 = .instr (.init 1) ∧
  decode 0x00000000FFFFFFFF01#72 = .instr (.init 0xFFFFFFFF) ∧
  decode 0x000000000000000002#72 = .instr .advance ∧
  decode 0x000000030000000103#72 = .instr (.range 1 3) ∧
  decode 0xFFFFFFFBFFFFFFF603#72 = .instr (.range (-10) (-5)) ∧
  decode 0x000000000000000004#72 = .instr .float ∧
  decode 0x000000000000000005#72 = .instr .save ∧
  decode 0x00000000217239FF06#72 = .instr (.restore 561134079) ∧
  decode 0x000000000000000000#72 = .reserved 0x00

/-- R73, and R72's default seed: which operands the assembler takes and what it encodes. -/
def Obligations.AssemblerOperandRanges : Prop :=
  assemble (.init none) = assemble (.init (some 1)) ∧
  (∀ n : Int, assemble (.init (some n)) = some (0#32 ++ BitVec.ofInt 32 n ++ 0x01#8)) ∧
  (∀ n : Int, 0 ≤ n → n ≤ 2 ^ 32 - 1 → assemble (.restore n) = some (0#32 ++ BitVec.ofInt 32 n ++ 0x06#8)) ∧
  (∀ n : Int, n < 0 ∨ 2 ^ 32 - 1 < n → assemble (.restore n) = none) ∧
  (∀ m n : Int, -2 ^ 31 ≤ m ∧ m ≤ 2 ^ 31 - 1 → -2 ^ 31 ≤ n ∧ n ≤ 2 ^ 31 - 1 →
    assemble (.range m n) = some (BitVec.ofInt 32 n ++ BitVec.ofInt 32 m ++ 0x03#8)) ∧
  (∀ m n : Int, ¬ (-2 ^ 31 ≤ m ∧ m ≤ 2 ^ 31 - 1) ∨ ¬ (-2 ^ 31 ≤ n ∧ n ≤ 2 ^ 31 - 1) →
    assemble (.range m n) = none)

/-- 30_encoding.md section 5 (R71 to R74; the way INIT and RESTORE print is the model's choice,
notes/assumptions/13.md): the printed disassembly of a command word, read back and assembled, is a word
of the same command with the ignored fields 0; a reserved word prints as a raw word. -/
def Obligations.DisassemblyReassembles : Prop :=
  ∀ c : CmdWord,
    (∀ i, decode c = .instr i → ∃ a, disassemble c = .line a ∧ readLine (showAsm a) = some (some a) ∧
      assemble a = some (encode i) ∧ decode (encode i) = .instr i) ∧
    (∀ op, decode c = .reserved op → disassemble c = .raw c)

/-! ### Reset and the port -/

/-- R33; the empty port: 10_state.md R34. -/
def Obligations.ResetLeavesSeedOneAndAnEmptyPort : Prop :=
  State.reset.STATE = 0x00000001#32 ∧ State.reset.cmd = none ∧ State.reset.rsp = none ∧
    State.reset.isLive = true

/-- 70_reset_and_hazards.md section 1 (R210, R211), with the model's choices: `rst` sets STATE to 1, drops a
command accepted but not answered, and empties the port; meanwhile no command is accepted, and at the first
step with `rst` released the port is ready. That a pending response is dropped is deduced
(notes/assumptions/4.md); that the responses taken stay as they were, and that a response meeting
`rsp_ready` at this edge is not among them, is the model's choice (notes/assumptions/6.md and 8.md). -/
def Obligations.ResetPinRestartsTheCore : Prop :=
  ∀ s : State, s.pins.rst = true →
    step s = .next { s with STATE := 0x00000001#32, cmd := none, rsp := none, host := s.host.tail } ∧
    s.cmdReady s.pins = false ∧
    ∀ t, step s = .next t → t.rspValid = false ∧ ∀ p : Pins, p.rst = false → t.cmdReady p = true

/-- 70_reset_and_hazards.md section 3 (R215) and section 5 (R219): the step of a state that holds an
accepted command performs it, whatever the pins but `rst`. -/
def Obligations.StepPerformsTheAcceptedCommand : Prop :=
  ∀ (s : State) (c : CmdWord), s.cmd = some c → s.rsp = none → s.pins.rst = false →
    (∀ i, decode c = .instr i → step s = exec i { s with host := s.host.tail }) ∧
    (∀ op, decode c = .reserved op →
      step s = .next { s with host := s.host.tail, rsp := some (0#64 ++ 0x03#8) })

/-- notes/assumptions/7.md, the model's choice of where a program's word is placed: the next step after
`withFetchWord` runs the command the word decodes to; a command the port still held unanswered is lost. -/
def Obligations.PlacedWordRunsNext : Prop :=
  ∀ (s : State) (w : Nat) (i : Instr), decodeTableWord 72 w = some i →
    step (s.withFetchWord 72 w) =
      exec i { s with cmd := some (BitVec.ofNat 72 w), rsp := none, taken := s.taken ++ s.rsp.toList }

/-- 70_reset_and_hazards.md section 3 (R214): when a command is accepted, and that a port with nothing to
do waits. -/
def Obligations.AcceptanceHandshake : Prop :=
  (∀ (s : State) (p : Pins),
    s.accepts p = true ↔ p.cmdValid = true ∧ p.rst = false ∧ s.cmd = none ∧ s.rsp = none) ∧
  (∀ s : State, s.accepts s.pins = true →
    step s = .next { s with cmd := some s.pins.cmd, host := s.host.tail }) ∧
  (∀ s : State, s.cmd = none → s.rsp = none → s.pins.rst = false → s.pins.cmdValid = false →
    step s = .next { s with host := s.host.tail })

/-- 70_reset_and_hazards.md section 3 (R214): a response is stable until it is taken, and taking it
empties the port. -/
def Obligations.ResponseHandshake : Prop :=
  ∀ (s : State) (r : RspWord), s.rsp = some r → s.pins.rst = false →
    s.rspValid = true ∧ s.accepts s.pins = false ∧
    (s.pins.rspReady = false → step s = .next { s with host := s.host.tail }) ∧
    (s.pins.rspReady = true → (rspStatus r).toNat ≤ 3 →
      step s = .next { s with cmd := none, rsp := none, host := s.host.tail, taken := s.taken ++ [r] })

/-- notes/assumptions/9.md, from 93_implementation_defined.md item 8: a step stops only where a response
with a status of 0x04 to 0xFF would be taken, and it is never refused. -/
def Obligations.StepStopsOnlyOnAReservedStatus : Prop :=
  ∀ s : State, (∀ f, step s = .fault f ↔
      f = .reservedStatus ∧ s.pins.rst = false ∧ s.pins.rspReady = true ∧
        ∃ r, s.rsp = some r ∧ 4 ≤ (rspStatus r).toNat) ∧
    ∀ q, step s ≠ .refused q

/-- 10_state.md R34 and `State.Inv`. -/
def Obligations.InvariantHoldsAtReset : Prop := State.reset.Inv

/-- 10_state.md R31, 20_memory.md R46, 30_encoding.md R62, R69, R70, 70_reset_and_hazards.md R215: in
every state that meets it, a step keeps it: a pending response answers the command the port holds with
STATE as it is, and every response taken has a named status and data 0 on an error. -/
def Obligations.StepKeepsThePortInvariant : Prop :=
  ∀ s t : State, s.Inv → step s = .next t → t.Inv

/-- 70_reset_and_hazards.md section 5 (R219): from every state of the invariant the step is total. -/
def Obligations.StepIsTotalUnderTheInvariant : Prop :=
  ∀ s : State, s.Inv → ∃ t, step s = .next t

/-- 20_memory.md section 2 (R48), 70_reset_and_hazards.md section 3 (R214, R215): there is always progress.
From every state of the invariant, a host that keeps presenting a command and keeps taking responses has
the command accepted after at most two steps. -/
def Obligations.PresentedCommandIsSoonAccepted : Prop :=
  ∀ (s : State) (c : CmdWord) (rest : List Pins), s.Inv →
    s.host = List.replicate 3 { rst := false, cmdValid := true, cmd := c, rspReady := true } ++ rest →
    ∃ n t, n ≤ 2 ∧ Sys2Proof.core.run n s = .next t ∧ t.accepts t.pins = true ∧ t.pins.cmd = c

/-! ### Runs (R219) -/

/-- 70_reset_and_hazards.md section 3 (R214): the hosts of `PortRunsRefineTransactionRuns`, which may present
a command while the one before is outstanding, keep it on the pins until it is accepted, at every step of
their runs. That `cmd_valid` stays 1 until then is the model's choice (notes/assumptions/10.md). -/
def Obligations.ScriptedHostsHoldTheirCommands : Prop :=
  ∀ (s : State) (ds : List Delivery) (n : Nat) (t : State), s.portEmpty → s.host = hostScript ds →
    Sys2Proof.core.run n s = .next t → t.hostHoldsCommand

/-- 70_reset_and_hazards.md section 5 (R219): performing a command, through the decoder and the machine's
state, is the transaction-level step on STATE and the raw word, and is total. -/
def Obligations.PerformingIsTheTransaction : Prop :=
  ∀ (c : CmdWord) (s : State), performCommand c s =
    .next { s with STATE := (transact s.STATE c).1, rsp := some (transact s.STATE c).2 }

/-- 20_memory.md section 2 (R46), 41_advance.md section 3 (R111), 70_reset_and_hazards.md sections 3 and 5
(R214, R215, R219): the machine with its port, driven by a scripted host (any commands, idle and stall steps,
commands presented early, `rsp_ready` low or held high), ends with the STATE and has handed over the
responses, in order, of the transaction-level run. -/
def Obligations.PortRunsRefineTransactionRuns : Prop :=
  ∀ (s : State) (ds : List Delivery) (rest : List Pins), s.portEmpty → s.host = hostScript ds ++ rest →
    Sys2Proof.core.run (hostScript ds).length s =
      .next { s with
        STATE := (runOf s.STATE (ds.map Delivery.cmd)).1
        host := rest
        taken := s.taken ++ (runOf s.STATE (ds.map Delivery.cmd)).2 }

/-- R91: INIT 0 answers OK; after it, until INIT or RESTORE writes a nonzero value, STATE is 0 and each
ADVANCE, FLOAT and valid RANGE answers INVALID_STATE. -/
def Obligations.ZeroSeedRejectsAdvancesUntilReseeded : Prop :=
  ∀ (st : Word) (c0 : CmdWord) (cs : List CmdWord), opOf c0 = 0x01#8 →
    aOf c0 = 0#32 →
    (∀ c ∈ cs, opOf c = 0x01#8 ∨ opOf c = 0x06#8 → aOf c = 0#32) →
    (runOf st (c0 :: cs)).1 = 0 ∧
    (runOf st (c0 :: cs)).2.head? = some (0#64 ++ 0x00#8) ∧
    ∀ cr ∈ (c0 :: cs).zip (runOf st (c0 :: cs)).2,
      opOf cr.1 = 0x02#8 ∨ opOf cr.1 = 0x04#8 ∨
        opOf cr.1 = 0x03#8 ∧ s32 (aOf cr.1) < s32 (bOf cr.1) →
      cr.2 = 0#64 ++ 0x01#8

/-- 44_snapshot_restore.md (R162, derived there; 90_conflicts.md C5): restoring what a SAVE answered,
after any commands between, replays the commands as issued right after the SAVE, from STATE 0 too. -/
def Obligations.RestoreOfASaveReplaysTheRun : Prop :=
  ∀ (st : Word) (save restore : CmdWord) (between cs : List CmdWord),
    opOf save = 0x05#8 → opOf restore = 0x06#8 →
    aOf restore = (rspData (transact st save).2).setWidth 32 →
    runOf (runOf st (save :: between ++ [restore])).1 cs = runOf (transact st save).1 cs

/-! ### Around the core -/

/-- R32: a step of one instance depends on that instance alone and leaves every other as it was. -/
def Obligations.InstancesShareNothing : Prop :=
  ∀ (k : Nat) (P Q : Platform), P.stepAt k = .next Q →
    Q.length = P.length ∧ (∀ j, j ≠ k → Q[j]? = P[j]?) ∧
    ∀ s, P[k]? = some s → ∃ t, step s = .next t ∧ Q[k]? = some t

/-- 00_scope.md R12, 20_memory.md R41: for either byte order, the bytes of a saved STATE stand for it. -/
def Obligations.PersistedBytesReadBack : Prop :=
  ∀ (order : ByteOrder) (v : Word), persistedWord order (persistBytes order v) = some v

/-! ### Any host, and the reset pin by rule -/

/-- R33, R211: while `rst` is asserted the core is not ready and accepts nothing; the step leaves STATE 1 and
an empty port, which is ready as soon as `rst` is released. -/
def Obligations.ResetEmptiesThePort : Prop :=
  ∀ s : State, s.pins.rst = true →
    s.cmdReady s.pins = false ∧ s.accepts s.pins = false ∧
    ∃ t, step s = .next t ∧ t.STATE = 0x00000001#32 ∧ t.cmd = none ∧ t.rspValid = false ∧
      ∀ p : Pins, p.rst = false → t.cmdReady p = true

/-- 20_memory.md section 2 (R46), 70_reset_and_hazards.md sections 3 and 5 (R214, R215, R219): with any host
that does not assert `rst`, for any number of steps from an empty port, the port holds the last command
accepted or none; STATE and the responses taken and pending are those of the transaction-level run over the
commands accepted, the one held without a response left out. -/
def Obligations.RunUnderAnyHostIsATransactionRun : Prop :=
  ∀ (s : State) (n : Nat), s.portEmpty → (∀ p ∈ s.host, p.rst = false) →
    ∃ t, Sys2Proof.core.run n s = .next t ∧
      (∀ c, t.cmd = some c → (acceptedIn n s).getLast? = some c) ∧
      t.STATE = (runOf s.STATE (t.performed (acceptedIn n s))).1 ∧
      t.taken ++ t.rsp.toList = s.taken ++ (runOf s.STATE (t.performed (acceptedIn n s))).2
end

