-- ==== Sys2Proof/Laws/Decode.lean ====
section
/-! SUPPORT. The fields of a command word that was built from fields, and what the decoder does with
each opcode. -/

namespace Sys2Proof

/-- Each bit of a built word comes from the field it lies in (R60). -/
theorem getLsbD_cmdWord (op : Byte) (a b : Word) (i : Nat) : (cmdWord op a b).getLsbD i =
    if i < 8 then op.getLsbD i else if i - 8 < 32 then a.getLsbD (i - 8) else b.getLsbD (i - 8 - 32) := by
  have h : (cmdWord op a b).getLsbD i = _ := BitVec.getLsbD_append (x := b ++ a) (y := op) (i := i)
  rw [h, BitVec.getLsbD_append]

@[simp] theorem opOf_cmdWord (op : Byte) (a b : Word) : opOf (cmdWord op a b) = op := by
  apply BitVec.eq_of_getLsbD_eq
  intro i hi
  simp only [opOf, BitVec.getLsbD_extractLsb', getLsbD_cmdWord]
  simp [hi]

@[simp] theorem aOf_cmdWord (op : Byte) (a b : Word) : aOf (cmdWord op a b) = a := by
  apply BitVec.eq_of_getLsbD_eq
  intro i hi
  simp only [aOf, BitVec.getLsbD_extractLsb', getLsbD_cmdWord]
  simp [hi]

@[simp] theorem bOf_cmdWord (op : Byte) (a b : Word) : bOf (cmdWord op a b) = b := by
  apply BitVec.eq_of_getLsbD_eq
  intro i hi
  simp only [bOf, BitVec.getLsbD_extractLsb', getLsbD_cmdWord]
  simp [hi, show ¬ 40 + i < 8 by omega, show ¬ 40 + i - 8 < 32 by omega, show 40 + i - 8 - 32 = i by omega]

/-- A word is its three fields (R60, R61). -/
theorem cmdWord_fields (w : CmdWord) : cmdWord (opOf w) (aOf w) (bOf w) = w := by
  apply BitVec.eq_of_getLsbD_eq
  intro i hi
  simp only [getLsbD_cmdWord, opOf, aOf, bOf, BitVec.getLsbD_extractLsb']
  by_cases h8 : i < 8
  · simp [h8]
  · by_cases h40 : i - 8 < 32
    · simp [h8, h40, show 8 + (i - 8) = i by omega]
    · simp [h8, h40, show 40 + (i - 8 - 32) = i by omega, show i - 8 - 32 < 32 by omega]

theorem decode_of_op_01 {w : CmdWord} (h : opOf w = 0x01#8) : decode w = .instr (.init (aOf w)) := by
  simp [decode, h]

theorem decode_of_op_02 {w : CmdWord} (h : opOf w = 0x02#8) : decode w = .instr .advance := by
  simp [decode, h]

theorem decode_of_op_03 {w : CmdWord} (h : opOf w = 0x03#8) :
    decode w = .instr (.range (s32 (aOf w)) (s32 (bOf w))) := by
  simp [decode, h]

theorem decode_of_op_04 {w : CmdWord} (h : opOf w = 0x04#8) : decode w = .instr .float := by
  simp [decode, h]

theorem decode_of_op_05 {w : CmdWord} (h : opOf w = 0x05#8) : decode w = .instr .save := by
  simp [decode, h]

theorem decode_of_op_06 {w : CmdWord} (h : opOf w = 0x06#8) : decode w = .instr (.restore (aOf w)) := by
  simp [decode, h]

/-- What the decoder can answer, and for which word: the six opcodes, and every other one reserved. -/
theorem decode_cases (w : CmdWord) :
    (opOf w = 0x01#8 ∧ decode w = .instr (.init (aOf w))) ∨
    (opOf w = 0x02#8 ∧ decode w = .instr .advance) ∨
    (opOf w = 0x03#8 ∧ decode w = .instr (.range (s32 (aOf w)) (s32 (bOf w)))) ∨
    (opOf w = 0x04#8 ∧ decode w = .instr .float) ∨
    (opOf w = 0x05#8 ∧ decode w = .instr .save) ∨
    (opOf w = 0x06#8 ∧ decode w = .instr (.restore (aOf w))) ∨
    ((opOf w ≠ 0x01#8 ∧ opOf w ≠ 0x02#8 ∧ opOf w ≠ 0x03#8 ∧ opOf w ≠ 0x04#8 ∧ opOf w ≠ 0x05#8 ∧
      opOf w ≠ 0x06#8) ∧ decode w = .reserved (opOf w)) := by
  by_cases h1 : opOf w = 0x01#8
  · exact .inl ⟨h1, decode_of_op_01 h1⟩
  by_cases h2 : opOf w = 0x02#8
  · exact .inr (.inl ⟨h2, decode_of_op_02 h2⟩)
  by_cases h3 : opOf w = 0x03#8
  · exact .inr (.inr (.inl ⟨h3, decode_of_op_03 h3⟩))
  by_cases h4 : opOf w = 0x04#8
  · exact .inr (.inr (.inr (.inl ⟨h4, decode_of_op_04 h4⟩)))
  by_cases h5 : opOf w = 0x05#8
  · exact .inr (.inr (.inr (.inr (.inl ⟨h5, decode_of_op_05 h5⟩))))
  by_cases h6 : opOf w = 0x06#8
  · exact .inr (.inr (.inr (.inr (.inr (.inl ⟨h6, decode_of_op_06 h6⟩)))))
  · exact .inr (.inr (.inr (.inr (.inr (.inr ⟨⟨h1, h2, h3, h4, h5, h6⟩, by simp [decode, *]⟩)))))

/-- The reserved opcodes are those that are none of the six (R65, R66). -/
theorem reserved_op_iff (op : Byte) : (op = 0x00#8 ∨ 0x07#8 ≤ op) ↔
    (op ≠ 0x01#8 ∧ op ≠ 0x02#8 ∧ op ≠ 0x03#8 ∧ op ≠ 0x04#8 ∧ op ≠ 0x05#8 ∧ op ≠ 0x06#8) := by
  revert op
  decide

theorem decode_of_reserved_op {w : CmdWord} (h : opOf w = 0x00#8 ∨ 0x07#8 ≤ opOf w) :
    decode w = .reserved (opOf w) := by
  simp [decode, (reserved_op_iff _).mp h]

/-- A signed reading of 32 bits always fits (R9). -/
theorem fitsS32_s32 (v : Word) : fitsS32 (s32 v) = true := by
  have h := BitVec.le_toInt v
  have h' := BitVec.toInt_lt (x := v)
  rw [fitsS32, Bool.and_eq_true, decide_eq_true_iff, decide_eq_true_iff, s32]
  omega

@[simp] theorem u32_s32 (v : Word) : u32 (s32 v) = v := BitVec.ofInt_toInt

end Sys2Proof
end

