-- ==== Sys2Proof/Laws/Samplers.lean ====
section
/-! SUPPORT. What the samplers' arithmetic does, once each. -/

namespace Sys2Proof.Machine

/-- The rounded quotient is within half a unit: `2 * |m * d - n| ≤ d`. -/
theorem divNearestEven_near (n : Nat) {d : Nat} (hd : 0 < d) :
    2 * (divNearestEven n d * d) ≤ 2 * n + d ∧ 2 * n ≤ 2 * (divNearestEven n d * d) + d := by
  have h := Nat.div_add_mod n d
  have hlt := Nat.mod_lt n hd
  unfold divNearestEven
  have hc : d * (n / d) = n / d * d := Nat.mul_comm _ _
  have h1 : (n / d + 1) * d = n / d * d + d := by ring
  have h2 : (n / d + n / d % 2) * d = n / d * d + n / d % 2 * d := by ring
  simp only
  split
  · omega
  · split
    · omega
    · rcases Nat.mod_two_eq_zero_or_one (n / d) with h0 | h0 <;> rw [h2, h0] <;> omega

/-- A result of RS lies in [min, max) (R120). -/
theorem RS_bounds (v : Word) {min max : Int} (h : min < max) : min ≤ RS v min max ∧ RS v min max < max := by
  have h0 := Int.emod_nonneg (v.toNat : Int) (show max - min ≠ 0 by omega)
  have h1 := Int.emod_lt_of_pos (v.toNat : Int) (show 0 < max - min by omega)
  unfold RS
  omega

end Sys2Proof.Machine
end

