-- ==== Sys2Proof/Laws/Float.lean ====
section
/-! SUPPORT. The shape of the float sampler's encodings and the numbers they stand for. -/

namespace Sys2Proof.Machine

/-- For v from 1 to the divisor the quotient lies in [2^-k, 2^(1-k)) for the k `quotLog2` finds. -/
theorem quotLog2_floatDivisor {v : Nat} (h1 : 1 ≤ v) (h2 : v ≤ floatDivisor) :
    ∃ k : Nat, k ≤ 32 ∧ quotLog2 v floatDivisor = -(k : Int) ∧
      floatDivisor ≤ v * 2 ^ k ∧ v * 2 ^ k < 2 * floatDivisor := by
  have hD : floatDivisor = 4294967295 := rfl
  have hDl : floatDivisor.log2 = 31 := by decide
  have hl1 : 2 ^ v.log2 ≤ v := Nat.log2_self_le (by omega)
  have hl2 : v < 2 ^ (v.log2 + 1) := Nat.lt_log2_self
  have hl : v.log2 ≤ 31 := by
    by_contra hc
    have : 2 ^ 32 ≤ 2 ^ v.log2 := Nat.pow_le_pow_right (by omega) (by omega)
    omega
  obtain ⟨j, hj⟩ : ∃ j, v.log2 + j = 31 := ⟨31 - v.log2, by omega⟩
  have hp : 2 ^ v.log2 * 2 ^ j = 2 ^ 31 := by rw [← pow_add, hj]
  have hlo : 2 ^ 31 ≤ v * 2 ^ j := by rw [← hp]; exact Nat.mul_le_mul_right _ hl1
  have hhi : v * 2 ^ j < 2 ^ 32 := by
    have : v * 2 ^ j < 2 ^ (v.log2 + 1) * 2 ^ j := Nat.mul_lt_mul_of_pos_right hl2 (by positivity)
    rw [pow_succ] at this
    have e : 2 ^ v.log2 * 2 * 2 ^ j = 2 ^ 32 := by rw [mul_right_comm, hp]; norm_num
    omega
  have he : (v.log2 : Int) - (floatDivisor.log2 : Int) = -(j : Int) := by rw [hDl]; omega
  unfold quotLog2
  simp only [he]
  have t1 : (-(j : Int)).toNat = 0 := by omega
  have t2 : (- -(j : Int)).toNat = j := by omega
  rw [t1, t2, pow_zero, mul_one]
  by_cases hc : floatDivisor ≤ v * 2 ^ j
  · exact ⟨j, by omega, by rw [if_pos hc], hc, by omega⟩
  · refine ⟨j + 1, by omega, by rw [if_neg hc]; push_cast; omega, ?_, ?_⟩ <;> rw [pow_succ, ← mul_assoc] <;> omega

/-- The encoding of FS(v) for v ≠ 0: the exponent field and the rounded significand `m`, which is within
half a unit of the exact quotient. -/
theorem FSbits_form {v : Word} (h : v ≠ 0) : ∃ k m : Nat, k ≤ 32 ∧
    floatDivisor ≤ v.toNat * 2 ^ k ∧ v.toNat * 2 ^ k < 2 * floatDivisor ∧
    2 ^ 52 ≤ m ∧ m ≤ 2 ^ 53 ∧ (FSbits v).toNat = (1022 - k) * 2 ^ 52 + m ∧
    2 * (m * floatDivisor) ≤ 2 * (v.toNat * 2 ^ (k + 52)) + floatDivisor ∧
    2 * (v.toNat * 2 ^ (k + 52)) ≤ 2 * (m * floatDivisor) + floatDivisor := by
  have hv0 : v.toNat ≠ 0 := fun hc => h (BitVec.eq_of_toNat_eq hc)
  have hlt := v.isLt
  have hD : floatDivisor = 4294967295 := rfl
  obtain ⟨k, hk, hq, hlo, hhi⟩ := quotLog2_floatDivisor (v := v.toNat) (by omega) (by omega)
  have hu : quotUnit v.toNat floatDivisor = -((k + 52 : Nat) : Int) := by
    unfold quotUnit; rw [hq]; push_cast; omega
  have hn := divNearestEven_near (v.toNat * 2 ^ (k + 52)) (d := floatDivisor) (by omega)
  set m := divNearestEven (v.toNat * 2 ^ (k + 52)) floatDivisor with hm
  have hN : v.toNat * 2 ^ (k + 52) = v.toNat * 2 ^ k * 2 ^ 52 := by rw [pow_add]; ring
  have hm1 : 2 ^ 52 ≤ m := by
    by_contra hc
    have : m ≤ 2 ^ 52 - 1 := by omega
    have := Nat.mul_le_mul_right floatDivisor this
    rw [hN] at hn
    omega
  have hm2 : m ≤ 2 ^ 53 := by
    by_contra hc
    have : 2 ^ 53 + 1 ≤ m := by omega
    have := Nat.mul_le_mul_right floatDivisor this
    rw [hN] at hn
    omega
  refine ⟨k, m, hk, hlo, hhi, hm1, hm2, ?_, hn⟩
  unfold FSbits f64DivBits
  rw [if_neg hv0]
  simp only [hu]
  have t1 : (- -((k + 52 : Nat) : Int)).toNat = k + 52 := by omega
  have t2 : (-((k + 52 : Nat) : Int)).toNat = 0 := by omega
  have t3 : (-((k + 52 : Nat) : Int) + 1074).toNat = 1022 - k := by omega
  rw [t1, t2, t3, pow_zero, mul_one, ← hm, BitVec.toNat_ofNat]
  rw [Nat.min_eq_left (by omega), Nat.mod_eq_of_lt (by omega)]

/-- The number such an encoding stands for. -/
theorem f64Value_of_form {b : Data} {k m : Nat} (hk : k ≤ 32) (h1 : 2 ^ 52 ≤ m) (h2 : m ≤ 2 ^ 53)
    (hb : b.toNat = (1022 - k) * 2 ^ 52 + m) :
    f64Finite b ∧ b.msb = false ∧ f64Value b = (m : ℚ) / 2 ^ (k + 52) := by
  have hmsb : b.msb = false := by
    rw [BitVec.msb_eq_false_iff_two_mul_lt, hb]; omega
  have he : (b.extractLsb' 52 11).toNat = b.toNat / 2 ^ 52 % 2 ^ 11 := by simp [Nat.shiftRight_eq_div_pow]
  have hf : (b.extractLsb' 0 52).toNat = b.toNat % 2 ^ 52 := by simp
  obtain ⟨j, hj⟩ : ∃ j, k + j = 1022 := ⟨1022 - k, by omega⟩
  have hj' : 1022 - k = j := by omega
  rw [hj'] at hb
  have key : ∀ E F : Nat, b.toNat = E * 2 ^ 52 + F → F < 2 ^ 52 → 1 ≤ E → E < 2047 → f64Finite b ∧ b.msb = false ∧ f64Value b = ((2:ℚ)^52 + F) * 2 ^ E / 2 ^ 1075 := by
    intro E F hbE hF hE1 hE2
    have e1 : (b.extractLsb' 52 11).toNat = E := by rw [he, hbE]; omega
    have e2 : (b.extractLsb' 0 52).toNat = F := by rw [hf, hbE]; omega
    refine ⟨by unfold f64Finite; rw [e1]; omega, hmsb, ?_⟩
    unfold f64Value
    simp only [e1, e2, hmsb]
    rw [if_neg (by omega)]; simp
  have pw : ∀ x : ℚ, x * 2 ^ (j + 1) / 2 ^ 1075 = x / 2 ^ (k + 52) := by
    intro x
    rw [show (1075 : ℕ) = (k + 52) + (j + 1) by omega, pow_add (2 : ℚ) (k + 52)]
    have a : (2 : ℚ) ^ (j + 1) ≠ 0 := by positivity
    have b : (2 : ℚ) ^ (k + 52) ≠ 0 := by positivity
    field_simp
  by_cases hm : m < 2 ^ 53
  · obtain ⟨a, b', c⟩ := key (j + 1) (m - 2 ^ 52) (by rw [hb]; omega) (by omega) (by omega) (by omega)
    refine ⟨a, b', c.trans ?_⟩
    rw [pw]
    congr 1
    rw [Nat.cast_sub h1]; push_cast; ring
  · have hm : m = 2 ^ 53 := by omega
    obtain ⟨a, b', c⟩ := key (j + 2) 0 (by rw [hb, hm]; omega) (by omega) (by omega) (by omega)
    refine ⟨a, b', c.trans ?_⟩
    rw [hm, ← pw]
    congr 1
    rw [show j + 2 = (j + 1) + 1 by omega, pow_succ (2 : ℚ) (j + 1)]; push_cast; ring

/-- Every finite encoding stands for a whole number below 2^53 times a power of two. The exponent 1074 is
a variable `N`, so that no proof evaluates 2^1074. -/
theorem f64Value_dyadic (b : Data) : ∃ (σ : ℤ) (s x : ℕ), (σ = 1 ∨ σ = -1) ∧ s < 2 ^ 53 ∧
    ∀ N : ℕ, N = 1074 → f64Value b = (σ : ℚ) * s * 2 ^ x / 2 ^ N := by
  unfold f64Value
  have hF : (b.extractLsb' 0 52).toNat < 2 ^ 52 := (b.extractLsb' 0 52).isLt
  generalize (b.extractLsb' 0 52).toNat = F at *
  generalize (b.extractLsb' 52 11).toNat = E at *
  have sg : ∃ σ : ℤ, (σ = 1 ∨ σ = -1) ∧ (if b.msb then (-1 : ℚ) else 1) = σ := by
    cases b.msb
    · exact ⟨1, .inl rfl, by simp⟩
    · exact ⟨-1, .inr rfl, by simp⟩
  obtain ⟨σ, hσ, e⟩ := sg
  simp only [e]
  by_cases hE : E = 0
  · rw [if_pos hE]; exact ⟨σ, F, 0, hσ, by omega, by rintro N rfl; rw [pow_zero, mul_one]⟩
  · rw [if_neg hE]
    obtain ⟨E', rfl⟩ : ∃ E', E = E' + 1 := ⟨E - 1, by omega⟩
    refine ⟨σ, 2 ^ 52 + F, E', hσ, by omega, ?_⟩
    intro N hN
    rw [Nat.cast_add, Nat.cast_pow, Nat.cast_ofNat]
    rw [pow_succ (2 : ℚ) E', show (1075 : ℕ) = N + 1 by omega, pow_succ (2 : ℚ) N, ← mul_assoc, mul_div_mul_right _ _ (by norm_num)]

end Sys2Proof.Machine
end

