-- ==== Sys2Proof/Laws/State.lean ====
section
/-! SUPPORT. One lemma per field of State per update of it, so that no proof unfolds a record update. -/

namespace Sys2Proof.Machine

variable (s : State)

@[simp] theorem State.setSTATE_STATE (v : Word) : (s.setSTATE v).STATE = v := rfl
@[simp] theorem State.setSTATE_cmd (v : Word) : (s.setSTATE v).cmd = s.cmd := rfl
@[simp] theorem State.setSTATE_rsp (v : Word) : (s.setSTATE v).rsp = s.rsp := rfl
@[simp] theorem State.setSTATE_host (v : Word) : (s.setSTATE v).host = s.host := rfl
@[simp] theorem State.setSTATE_taken (v : Word) : (s.setSTATE v).taken = s.taken := rfl

@[simp] theorem State.respond_STATE (st : Status) (d : Data) : (s.respond st d).STATE = s.STATE := rfl
@[simp] theorem State.respond_cmd (st : Status) (d : Data) : (s.respond st d).cmd = s.cmd := rfl
@[simp] theorem State.respond_rsp (st : Status) (d : Data) : (s.respond st d).rsp = some (rspWord st d) := rfl
@[simp] theorem State.respond_host (st : Status) (d : Data) : (s.respond st d).host = s.host := rfl
@[simp] theorem State.respond_taken (st : Status) (d : Data) : (s.respond st d).taken = s.taken := rfl

@[simp] theorem State.nextPins_STATE : s.nextPins.STATE = s.STATE := rfl
@[simp] theorem State.nextPins_cmd : s.nextPins.cmd = s.cmd := rfl
@[simp] theorem State.nextPins_rsp : s.nextPins.rsp = s.rsp := rfl
@[simp] theorem State.nextPins_host : s.nextPins.host = s.host.tail := rfl
@[simp] theorem State.nextPins_taken : s.nextPins.taken = s.taken := rfl

@[simp] theorem State.resetCore_STATE : s.resetCore.STATE = 0x00000001#32 := rfl
@[simp] theorem State.resetCore_cmd : s.resetCore.cmd = none := rfl
@[simp] theorem State.resetCore_rsp : s.resetCore.rsp = none := rfl
@[simp] theorem State.resetCore_host : s.resetCore.host = s.host := rfl
@[simp] theorem State.resetCore_taken : s.resetCore.taken = s.taken := rfl

@[simp] theorem State.acceptCommand_STATE (c : CmdWord) : (s.acceptCommand c).STATE = s.STATE := rfl
@[simp] theorem State.acceptCommand_cmd (c : CmdWord) : (s.acceptCommand c).cmd = some c := rfl
@[simp] theorem State.acceptCommand_rsp (c : CmdWord) : (s.acceptCommand c).rsp = s.rsp := rfl
@[simp] theorem State.acceptCommand_host (c : CmdWord) : (s.acceptCommand c).host = s.host := rfl
@[simp] theorem State.acceptCommand_taken (c : CmdWord) : (s.acceptCommand c).taken = s.taken := rfl

@[simp] theorem State.withAccepted_STATE (c : CmdWord) : (s.withAccepted c).STATE = s.STATE := rfl
@[simp] theorem State.withAccepted_cmd (c : CmdWord) : (s.withAccepted c).cmd = some c := rfl
@[simp] theorem State.withAccepted_rsp (c : CmdWord) : (s.withAccepted c).rsp = none := rfl
@[simp] theorem State.withAccepted_host (c : CmdWord) : (s.withAccepted c).host = Pins.quiet :: s.host := rfl
@[simp] theorem State.withAccepted_taken (c : CmdWord) : (s.withAccepted c).taken = s.taken ++ s.rsp.toList := rfl

end Sys2Proof.Machine
end

