-- ==== Sys2Proof/Laws/Ops.lean ====
section
/-! SUPPORT. What the shared operations do, once each: the response word's fields, raising an error, the
advance procedure, and what any command can answer. -/

namespace Sys2Proof.Machine

/-- Each bit of a response word comes from the field it lies in (R62). -/
theorem getLsbD_rspWord (st : Status) (d : Data) (i : Nat) :
    (rspWord st d).getLsbD i = if i < 8 then (statusCode st).getLsbD i else d.getLsbD (i - 8) :=
  BitVec.getLsbD_append (x := d) (y := statusCode st) (i := i)

@[simp] theorem rspStatus_rspWord (st : Status) (d : Data) : rspStatus (rspWord st d) = statusCode st := by
  apply BitVec.eq_of_getLsbD_eq
  intro i hi
  simp only [rspStatus, BitVec.getLsbD_extractLsb', getLsbD_rspWord]
  simp [hi]

@[simp] theorem rspData_rspWord (st : Status) (d : Data) : rspData (rspWord st d) = d := by
  apply BitVec.eq_of_getLsbD_eq
  intro i hi
  simp only [rspData, BitVec.getLsbD_extractLsb', getLsbD_rspWord]
  simp [hi]

@[simp] theorem statusNamed_rspWord (st : Status) (d : Data) : statusNamed (rspWord st d) = true := by
  cases st <;> simp [statusNamed, statusCode]

/-- Raising an error answers a next state: the error's status, data 0, and nothing else changed (R180). -/
theorem raise_eq (e : CmdError) (s : State) : raise e s = .next (s.respond (errorStatus e) 0) := rfl

theorem advance?_invalid {s : State} (h : s.STATE = 0) : advance? s = none := by
  simp [advance?, State.isInvalid, h]

theorem advance?_live {s : State} (h : s.STATE ≠ 0) :
    advance? s = some (T s.STATE, s.setSTATE (T s.STATE)) := by
  simpa [advance?, State.isInvalid] using h

theorem advanceThen_invalid {s : State} (f : Word → Data) (h : s.STATE = 0) :
    advanceThen f s = .next (s.respond .invalidState 0) := by
  simp [advanceThen, advance?_invalid h, raise_eq, errorStatus]

theorem advanceThen_live {s : State} (f : Word → Data) (h : s.STATE ≠ 0) :
    advanceThen f s = .next ((s.setSTATE (T s.STATE)).respond .ok (f (T s.STATE))) := by
  simp [advanceThen, advance?_live h]

/-- All an advance-based response can be: InvalidState with STATE = 0 kept, or one step of T (R104). -/
theorem advanceThen_cases (f : Word → Data) (s : State) :
    (s.STATE = 0 ∧ advanceThen f s = .next (s.respond .invalidState 0)) ∨
    (s.STATE ≠ 0 ∧ advanceThen f s = .next ((s.setSTATE (T s.STATE)).respond .ok (f (T s.STATE)))) := by
  by_cases h : s.STATE = 0
  · exact .inl ⟨h, advanceThen_invalid f h⟩
  · exact .inr ⟨h, advanceThen_live f h⟩

theorem execRange_empty {min max : Int} (h : max ≤ min) (s : State) :
    execRange min max s = .next (s.respond .invalidRange 0) := by
  simp [execRange, Int.not_lt.mpr h, raise_eq, errorStatus]

theorem execRange_valid {min max : Int} (h : min < max) (s : State) :
    execRange min max s = advanceThen (fun v => sext64 (u32 (RS v min max))) s := by
  simp [execRange, h]

/-- Every command answers a next state with one response; STATE either stays, with any status, or is
written, with status OK (R184, R219). -/
theorem exec_answers (i : Instr) (s : State) :
    (∃ st d, exec i s = .next (s.respond st d)) ∨ (∃ v d, exec i s = .next ((s.setSTATE v).respond .ok d)) := by
  have adv : ∀ f, (∃ st d, advanceThen f s = .next (s.respond st d)) ∨
      (∃ v d, advanceThen f s = .next ((s.setSTATE v).respond .ok d)) := by
    intro f
    rcases advanceThen_cases f s with ⟨-, h⟩ | ⟨-, h⟩
    · exact .inl ⟨_, _, h⟩
    · exact .inr ⟨_, _, h⟩
  cases i with
  | init seed => exact .inr ⟨seed, 0, rfl⟩
  | advance => exact adv zext64
  | range min max =>
    by_cases h : min < max
    · simpa only [exec, execRange_valid h] using adv _
    · exact .inl ⟨_, _, execRange_empty (Int.not_lt.mp h) s⟩
  | float => exact adv FSbits
  | save => exact .inl ⟨_, _, rfl⟩
  | restore value => exact .inr ⟨value, 0, rfl⟩

end Sys2Proof.Machine
end

