-- ==== Sys2Proof/Laws/PerInstr.lean ====
section
/-! SUPPORT. For every command: its word carries the row's `match` value under the row's `mask`
(spec/opcode_table.json, R65), and its operands in the fields A and B (R64). -/

namespace Sys2Proof

/-- The `match` value of a command's row. -/
def rowMatch : Instr → Nat
  | .init _ => 1
  | .advance => 2
  | .range _ _ => 3
  | .float => 4
  | .save => 5
  | .restore _ => 6

/-- The command's word holds its row's `match` value in the bits of the row's `mask`, and the fields A
and B an assembler writes in theirs. -/
def Laws.MatchesRow.Statement (i : Instr) : Prop :=
  (opOf (encode i)).toNat = rowMatch i ∧ aOf (encode i) = fieldA i ∧ bOf (encode i) = fieldB i

theorem Laws.MatchesRow.init (seed : Word) : Laws.MatchesRow.Statement (.init seed) := by
  simp [Laws.MatchesRow.Statement, encode, opcode, rowMatch]

theorem Laws.MatchesRow.advance : Laws.MatchesRow.Statement .advance := by
  simp [Laws.MatchesRow.Statement, encode, opcode, rowMatch]

theorem Laws.MatchesRow.range (min max : Int) : Laws.MatchesRow.Statement (.range min max) := by
  simp [Laws.MatchesRow.Statement, encode, opcode, rowMatch]

theorem Laws.MatchesRow.float : Laws.MatchesRow.Statement .float := by
  simp [Laws.MatchesRow.Statement, encode, opcode, rowMatch]

theorem Laws.MatchesRow.save : Laws.MatchesRow.Statement .save := by
  simp [Laws.MatchesRow.Statement, encode, opcode, rowMatch]

theorem Laws.MatchesRow.restore (value : Word) : Laws.MatchesRow.Statement (.restore value) := by
  simp [Laws.MatchesRow.Statement, encode, opcode, rowMatch]

end Sys2Proof
end

