-- ==== Sys2Proof/Laws/Port.lean ====
section
/-! SUPPORT. What a step of the port can do, once: each case under its condition, and the inversion. -/

namespace Sys2Proof.Machine

theorem portStep_rst {p : Pins} (h : p.rst = true) (s : State) : portStep p s = .next s.resetCore := by
  simp [portStep, h]

theorem portStep_take {p : Pins} {s : State} {r : RspWord} (h : p.rst = false) (hr : s.rsp = some r)
    (ht : p.rspReady = true) : portStep p s = takeResponse r s := by
  simp [portStep, h, hr, ht]

theorem portStep_stall {p : Pins} {s : State} {r : RspWord} (h : p.rst = false) (hr : s.rsp = some r)
    (ht : p.rspReady = false) : portStep p s = .next s := by
  simp [portStep, h, hr, ht]

theorem portStep_perform {p : Pins} {s : State} {c : CmdWord} (h : p.rst = false) (hr : s.rsp = none)
    (hc : s.cmd = some c) : portStep p s = performCommand c s := by
  simp [portStep, h, hr, hc]

theorem portStep_accept {p : Pins} {s : State} (h : p.rst = false) (hr : s.rsp = none) (hc : s.cmd = none)
    (hv : p.cmdValid = true) : portStep p s = .next (s.acceptCommand p.cmd) := by
  simp [portStep, h, hr, hc, hv]

theorem portStep_wait {p : Pins} {s : State} (h : p.rst = false) (hr : s.rsp = none) (hc : s.cmd = none)
    (hv : p.cmdValid = false) : portStep p s = .next s := by
  simp [portStep, h, hr, hc, hv]

theorem takeResponse_named {r : RspWord} (h : statusNamed r = true) (s : State) :
    takeResponse r s = .next { s with cmd := none, rsp := none, taken := s.taken ++ [r] } := by
  simp [takeResponse, h]

theorem takeResponse_next {r : RspWord} {s t : State} (h : takeResponse r s = .next t) :
    statusNamed r = true ∧ t = { s with cmd := none, rsp := none, taken := s.taken ++ [r] } := by
  unfold takeResponse at h
  split at h
  · exact ⟨‹_›, by simpa using h.symm⟩
  · cases h

theorem performCommand_instr {c : CmdWord} {i : Instr} (h : decode c = .instr i) (s : State) :
    performCommand c s = exec i s := by
  simp [performCommand, h]

theorem performCommand_reserved {c : CmdWord} {op : Byte} (h : decode c = .reserved op) (s : State) :
    performCommand c s = .next (s.respond .illegalOp 0) := by
  simp [performCommand, h, execReserved, raise_eq, errorStatus]

/-- Everything a port step that answers a next state can have done (R210 to R215). -/
theorem portStep_cases {p : Pins} {s t : State} (h : portStep p s = .next t) :
    (p.rst = true ∧ t = s.resetCore) ∨
    (∃ r, p.rst = false ∧ s.rsp = some r ∧ p.rspReady = true ∧ statusNamed r = true ∧
      t = { s with cmd := none, rsp := none, taken := s.taken ++ [r] }) ∨
    (∃ r, p.rst = false ∧ s.rsp = some r ∧ p.rspReady = false ∧ t = s) ∨
    (∃ c, p.rst = false ∧ s.rsp = none ∧ s.cmd = some c ∧ performCommand c s = .next t) ∨
    (p.rst = false ∧ s.rsp = none ∧ s.cmd = none ∧ p.cmdValid = true ∧ t = s.acceptCommand p.cmd) ∨
    (p.rst = false ∧ s.rsp = none ∧ s.cmd = none ∧ p.cmdValid = false ∧ t = s) := by
  rcases hrst : p.rst with _ | _
  · rcases hr : s.rsp with _ | r
    · rcases hc : s.cmd with _ | c
      · rcases hv : p.cmdValid with _ | _
        · rw [portStep_wait hrst hr hc hv] at h
          simp_all
        · rw [portStep_accept hrst hr hc hv] at h
          simp_all
      · rw [portStep_perform hrst hr hc] at h
        simp_all
    · rcases ht : p.rspReady with _ | _
      · rw [portStep_stall hrst hr ht] at h
        simp_all
      · rw [portStep_take hrst hr ht] at h
        have := takeResponse_next h
        simp_all
  · rw [portStep_rst hrst] at h
    simp_all

/-- The table word placed by `withFetchWord` is performed by the very next step. -/
theorem step_withAccepted (c : CmdWord) (s : State) :
    step (s.withAccepted c) =
      performCommand c { s with cmd := some c, rsp := none, taken := s.taken ++ s.rsp.toList } := by
  simp [step, portStep, State.pins, State.nextPins, State.withAccepted, Pins.quiet]

end Sys2Proof.Machine
end

