-- ==== Sys2Proof/Laws/Run.lean ====
section
/-! SUPPORT. Running the machine for several steps, one step at a time, and the small lemmas of the terms
runs are stated in: host scripts, the commands accepted and performed, transaction-level runs. -/

namespace Sys2Proof.Machine

theorem coreRun_succ (M : Host.Core) {s t : M.State} (n : Nat) (h : M.step s = .next t) :
    M.run (n + 1) s = M.run n t := by
  simp only [Host.Core.run, h]

/-- One step that answers a next state, then the rest of the run. -/
theorem run_succ_of_step {s t : State} (n : Nat) (h : step s = .next t) :
    Sys2Proof.core.run (n + 1) s = Sys2Proof.core.run n t :=
  coreRun_succ Sys2Proof.core n h

/-! ### Host scripts -/

@[simp] theorem presentLast_nil (e : Nat) (c : CmdWord) : presentLast e c [] = [] := rfl

theorem presentLast_cons (e : Nat) (c : CmdWord) (r : Bool) (rs : List Bool) :
    presentLast e c (r :: rs) =
      { rst := false, cmdValid := decide (rs.length < e), cmd := c, rspReady := r } :: presentLast e c rs := rfl

@[simp] theorem presentLast_length (e : Nat) (c : CmdWord) (rs : List Bool) :
    (presentLast e c rs).length = rs.length := by
  induction rs with
  | nil => rfl
  | cons r rs ih => simp [presentLast_cons, ih]

@[simp] theorem hostScript_nil : hostScript [] = [] := rfl

theorem hostScript_cons (d : Delivery) (ds : List Delivery) : hostScript (d :: ds) =
    d.lead ++ Pins.offer d.cmd d.ready ::
      (presentLast (ds.head?.elim 0 Delivery.early) (ds.head?.elim 0 Delivery.cmd) d.busyReady ++ hostScript ds) := rfl

/-- A command presented early is the first thing on the pins once the port is empty. -/
theorem hostScript_early {d : Delivery} (h : d.early ≠ 0) (ds : List Delivery) :
    (hostScript (d :: ds)).head? = some (Pins.offer d.cmd d.ready) := by
  rw [hostScript_cons, Delivery.lead, if_neg h]
  rfl

/-! ### Commands accepted and performed -/

@[simp] theorem acceptedIn_zero (s : State) : acceptedIn 0 s = [] := rfl

theorem acceptedIn_succ_of_step {s t : State} (n : Nat) (h : step s = .next t) :
    acceptedIn (n + 1) s = (if s.accepts s.pins then [s.pins.cmd] else []) ++ acceptedIn n t := by
  simp only [acceptedIn, h]

theorem State.performed_of_no_cmd {s : State} (h : s.cmd = none) (cs : List CmdWord) : s.performed cs = cs := by
  simp [State.performed, h]

theorem State.performed_of_rsp {s : State} {r : RspWord} (h : s.rsp = some r) (cs : List CmdWord) :
    s.performed cs = cs := by
  simp [State.performed, h]

theorem State.performed_of_held {s : State} {c : CmdWord} (h : s.cmd = some c) (hr : s.rsp = none)
    (cs : List CmdWord) : s.performed (cs ++ [c]) = cs := by
  simp [State.performed, h, hr]

/-! ### Transaction-level runs -/

@[simp] theorem runOf_nil (st : Word) : runOf st [] = (st, []) := rfl

theorem runOf_cons (st : Word) (c : CmdWord) (cs : List CmdWord) :
    runOf st (c :: cs) =
      ((runOf (transact st c).1 cs).1, (transact st c).2 :: (runOf (transact st c).1 cs).2) := rfl

/-- A run over two sequences is the run over the first, then over the second from where it ended. -/
theorem runOf_append (st : Word) (as bs : List CmdWord) :
    runOf st (as ++ bs) = ((runOf (runOf st as).1 bs).1, (runOf st as).2 ++ (runOf (runOf st as).1 bs).2) := by
  induction as generalizing st with
  | nil => rfl
  | cons a as ih => simp [runOf_cons, ih]

end Sys2Proof.Machine
end

