-- ==== Sys2Proof/Laws/Transform.lean ====
section
/-! SUPPORT. The bits of the transform's steps (41_advance.md R101 to R103). -/

namespace Sys2Proof.Machine

/-- A bit of S1. -/
theorem S1_getLsbD (x : Word) {i : Nat} (hi : i < 32) :
    (S1 x).getLsbD i = (x.getLsbD i ^^ (decide (13 ≤ i) && x.getLsbD (i - 13))) := by
  by_cases h : 13 ≤ i
  · simp [S1, shl, hi, h, show ¬ i < 13 by omega, show i - 13 < 32 by omega]
  · simp [S1, shl, hi, h, show i < 13 by omega]

/-- A bit of S2: bits 31 to 15 take bit 31 of the argument, bits 14 to 0 the bit 17 places above. -/
theorem S2_getLsbD (x : Word) {i : Nat} (hi : i < 32) :
    (S2 x).getLsbD i = (x.getLsbD i ^^ if i < 15 then x.getLsbD (17 + i) else x.getLsbD 31) := by
  simp only [S2, sar, BitVec.getLsbD_xor, BitVec.getLsbD_sshiftRight, BitVec.msb_eq_getLsbD_last]
  split <;> split <;> (try omega) <;> simp [show ¬ 32 ≤ i by omega]

/-- A bit of S3. -/
theorem S3_getLsbD (x : Word) {i : Nat} (hi : i < 32) :
    (S3 x).getLsbD i = (x.getLsbD i ^^ (decide (5 ≤ i) && x.getLsbD (i - 5))) := by
  by_cases h : 5 ≤ i
  · simp [S3, shl, hi, h, show ¬ i < 5 by omega, show i - 5 < 32 by omega]
  · simp [S3, shl, hi, h, show i < 5 by omega]

end Sys2Proof.Machine
end

