-- ==== Sys2Proof/Tests/Slice0.lean ====
section
/-! SUPPORT. The model's own tests: well-formedness, decoding of words written out bit by bit from
30_encoding.md R60 to R65, single commands against the vectors of 95_test_vectors.md, the port, the
assembler against R75, and a witness for the hypotheses of every statement. -/

namespace Sys2Proof.Tests

open Sys2Proof.Machine

/-! ### Well-formedness: one ill-formed term for each check -/

theorem test_wf_refuses_min_below : (Instr.range (-2147483649) 0).wf = false := by decide
theorem test_wf_refuses_min_above : (Instr.range 2147483648 0).wf = false := by decide
theorem test_wf_refuses_max_below : (Instr.range 0 (-2147483649)).wf = false := by decide
theorem test_wf_refuses_max_above : (Instr.range 0 2147483648).wf = false := by decide
theorem test_wf_takes_the_ends : (Instr.range (-2147483648) 2147483647).wf = true := by decide
theorem test_wf_takes_an_empty_range : (Instr.range 5 3).wf = true := by decide

/-! ### Decoding: B in bits 71:40, A in bits 39:8, op in bits 7:0, each word written out bit by bit -/

/-- INIT 123456, R75. -/
theorem test_decode_init : decode
    0b000000000000000000000000000000000000000000000001111000100100000000000001#72 =
    .instr (.init 123456) := by decide

/-- B is ignored, R68; 95_test_vectors.md section 2.2. -/
theorem test_decode_init_ignores_b : decode
    0b111111111111111111111111111111110000000000000000000000000000100100000001#72 =
    .instr (.init 9) := by decide

/-- ADVANCE with nonzero A and B, 95_test_vectors.md section 2.6. -/
theorem test_decode_advance : decode
    0b000100100011010001010110011110001101111010101101101111101110111100000010#72 =
    .instr .advance := by decide

/-- RANGE 1, 3, R75. -/
theorem test_decode_range : decode
    0b000000000000000000000000000000110000000000000000000000000000000100000011#72 =
    .instr (.range 1 3) := by decide

/-- RANGE -10, -5, R75. -/
theorem test_decode_range_signed : decode
    0b111111111111111111111111111110111111111111111111111111111111011000000011#72 =
    .instr (.range (-10) (-5)) := by decide

/-- FLOAT, R75. -/
theorem test_decode_float : decode
    0b000000000000000000000000000000000000000000000000000000000000000000000100#72 =
    .instr .float := by decide

/-- SAVE, R75. -/
theorem test_decode_save : decode
    0b000000000000000000000000000000000000000000000000000000000000000000000101#72 =
    .instr .save := by decide

/-- RESTORE 561134079, R75. -/
theorem test_decode_restore : decode
    0b000000000000000000000000000000000010000101110010001110011111111100000110#72 =
    .instr (.restore 561134079) := by decide

/-- the all-zero word is illegal, R66. -/
theorem test_decode_zero_reserved : decode
    0b000000000000000000000000000000000000000000000000000000000000000000000000#72 =
    .reserved 0x00 := by decide

/-- R66. -/
theorem test_decode_seven_reserved : decode
    0b000000000000000000000000000000000000000000000000000000000000000000000111#72 =
    .reserved 0x07 := by decide

/-- R66. -/
theorem test_decode_ff_reserved : decode
    0b111111111111111111111111111111111111111111111111111111111111111111111111#72 =
    .reserved 0xFF := by decide

/-- The table words of the six rows and their operand words of zeros (spec/opcode_table.json). -/
theorem test_decodeTableWord :
    decodeTableWord 72 1 = some (.init 0) ∧ decodeTableWord 72 2 = some .advance ∧
    decodeTableWord 72 3 = some (.range 0 0) ∧ decodeTableWord 72 4 = some .float ∧
    decodeTableWord 72 5 = some .save ∧ decodeTableWord 72 6 = some (.restore 0) ∧
    decodeTableWord 72 7 = none ∧ decodeTableWord 80 1 = none := by decide

/-- R75: the words the assembler's examples encode to. -/
theorem test_encode_examples :
    encode (.init 123456) = 0x000000000001E24001#72 ∧ encode .advance = 0x000000000000000002#72 ∧
    encode (.range (-10) (-5)) = 0xFFFFFFFBFFFFFFF603#72 ∧ encode .float = 0x000000000000000004#72 ∧
    encode .save = 0x000000000000000005#72 ∧ encode (.restore 561134079) = 0x00000000217239FF06#72 := by decide

/-! ### Single commands, each performed by one step (95_test_vectors.md) -/

/-- The state after reset with another STATE. -/
def withSTATE (v : Word) : State := { State.reset with STATE := v }

/-- STATE and the response after one step that performs the command word `c` from STATE `v`. -/
def after (v : Word) (c : CmdWord) : Option (Word × RspWord) :=
  match step ((withSTATE v).withAccepted c) with
  | .next t => t.rsp.map fun r => (t.STATE, r)
  | .fault _ => none
  | .refused _ => none

/-- P1 step 1. -/
theorem test_init : after 0x00000001#32 0x000000000001E24001#72 = some (0x0001E240#32, 0x000000000000000000#72) := by decide

/-- section 2.2: no error at construction. -/
theorem test_init_zero : after 0x00000007#32 0x000000000000000001#72 = some (0x00000000#32, 0x000000000000000000#72) := by decide

/-- section 2.1, shift-discriminating. -/
theorem test_advance : after 0x12345678#32 0x000000000000000002#72 = some (0x8797DAA5#32, 0x000000008797DAA500#72) := by decide

/-- section 2.1. -/
theorem test_advance_zero : after 0x00000000#32 0x000000000000000002#72 = some (0x00000000#32, 0x000000000000000001#72) := by decide

/-- section 2.1, R109. -/
theorem test_advance_into_zero : after 0xFC001FFF#32 0x000000000000000002#72 = some (0x00000000#32, 0x000000000000000000#72) := by decide

/-- section 2.3 row 4. -/
theorem test_range_signed : after 0x00000001#32 0x7FFFFFFF8000000003#72 = some (0x00042021#32, 0xFFFFFFFF8004202100#72) := by decide

/-- section 2.3 row 9: INVALID_RANGE wins. -/
theorem test_range_empty_first : after 0x00000000#32 0x000000050000000503#72 = some (0x00000000#32, 0x000000000000000002#72) := by decide

/-- section 2.3 row 13. -/
theorem test_range_signed_compare : after 0x00000001#32 0x800000007FFFFFFF03#72 = some (0x00000001#32, 0x000000000000000002#72) := by decide

/-- section 2.3 row 10. -/
theorem test_range_invalid_state : after 0x00000000#32 0x000000030000000103#72 = some (0x00000000#32, 0x000000000000000001#72) := by decide

/-- section 2.4; the divisor of 90_conflicts.md C1. -/
theorem test_float : after 0x16336771#32 0x000000000000000004#72 = some (0x217239FF#32, 0x3FC0B91CFF90B91D00#72) := by decide

/-- section 2.4, R143. -/
theorem test_float_largest : after 0x4707E94A#32 0x000000000000000004#72 = some (0xFFFFFFFD#32, 0x3FEFFFFFFFC0000000#72) := by decide

/-- section 2.5, zero-extended. -/
theorem test_save : after 0xFFFFFFFF#32 0x000000000000000005#72 = some (0xFFFFFFFF#32, 0x00000000FFFFFFFF00#72) := by decide

/-- section 2.5, no check. -/
theorem test_save_zero : after 0x00000000#32 0x000000000000000005#72 = some (0x00000000#32, 0x000000000000000000#72) := by decide

/-- section 2.5. -/
theorem test_restore : after 0xAFF0B1F9#32 0x00000000217239FF06#72 = some (0x217239FF#32, 0x000000000000000000#72) := by decide

/-- section 2.5, no validation. -/
theorem test_restore_zero : after 0x00000001#32 0x000000000000000006#72 = some (0x00000000#32, 0x000000000000000000#72) := by decide

/-- section 2.6: ILLEGAL_OP before any other check. -/
theorem test_reserved_first : after 0x00000000#32 0x000000050000000580#72 = some (0x00000000#32, 0x000000000000000003#72) := by decide

/-- section 2.6. -/
theorem test_ignored_fields : after 0x0001E240#32 0x12345678DEADBEEF02#72 = some (0xB57670E4#32, 0x00000000B57670E400#72) := by decide

/-- 95_test_vectors.md section 2.1, the intermediate values from 0x12345678. -/
theorem test_transform_steps : S1 0x12345678#32 = 0x98FB5678#32 ∧ sar 0x98FB5678#32 17 = 0xFFFFCC7D#32 ∧
    S2 0x98FB5678#32 = 0x67049A05#32 ∧ TL 0x12345678#32 = 0x87985AA5#32 := by decide

/-- 95_test_vectors.md section 2.4, FS alone at values T never gives. -/
theorem test_float_sampler : FSbits 0xFFFFFFFE#32 = 0x3FEFFFFFFFE00000#64 ∧ FSbits 0x1#32 = 0x3DF0000000100000#64 ∧
    FSbits 0x80000000#32 = 0x3FE0000000100000#64 := by decide

/-! ### Reset, the port and the tools around the core -/

/-- R210: reset drops an accepted command; no STATE write, no response, the next command is taken. -/
theorem test_reset_drops_the_accepted_command :
    step { withSTATE 42 with cmd := some 0x000000000000000901#72, host := [{ Pins.quiet with rst := true }] } =
      .next State.reset := rfl

/-- R214: a second command presented while a response is pending is not accepted. -/
theorem test_no_second_command :
    step { withSTATE 7 with cmd := some 0x000000000000000005#72, rsp := some 0x000000000000000700#72, host := [Pins.present 0x000000000000000002#72] } =
      .next { withSTATE 7 with cmd := some 0x000000000000000005#72, rsp := some 0x000000000000000700#72 } := rfl

/-- 93_implementation_defined.md item 8: a status no core produces is a fault where it is taken. -/
theorem test_reserved_status_faults :
    step { withSTATE 7 with cmd := some 0x000000000000000005#72, rsp := some 0x000000000000000704#72, host := [Pins.take] } =
      .fault .reservedStatus := rfl

/-- R71, R72, R73: lines of text, among them what the grammar does not have. -/
theorem test_read_lines :
    readLine ['I','N','I','T',' ','-','1',' ',';','x'] = some (some (.init (some (-1)))) ∧
    readLine ['I','N','I','T'] = some (some (.init none)) ∧
    readLine ['R','A','N','G','E',' ','-','1','0',',','-','5'] = some (some (.range (-10) (-5))) ∧
    readLine ['R','E','S','T','O','R','E',' ','0','x','f','F'] = some (some (.restore 255)) ∧
    readLine ['I','N','I','T',' ','-','0','x','1'] = none ∧ readLine [';'] = some none := by decide

/-- R60, R74: a reserved word prints as a raw word. -/
theorem test_show_reserved : showDisasm (disassemble 0x12345678DEADBEEF00#72) =
    ['.','c','m','d',' ','0','x','1','2','3','4','5','6','7','8','_','D','E','A','D','B','E','E','F','_','0','0'] := by decide

/-- R12: the two byte orders differ. -/
theorem test_persist : persistBytes .little 0x12345678#32 = [0x78#8, 0x56#8, 0x34#8, 0x12#8] ∧
    persistBytes .big 0x12345678#32 = [0x12#8, 0x34#8, 0x56#8, 0x78#8] := by decide

/-! ### Witnesses: for each statement with hypotheses, values that meet them, clause by clause -/

theorem witness_InitLoadsItsSeed : (0xFFFFFFFF0000000001#72).extractLsb' 0 8 = 0x01#8 := by decide

theorem witness_AdvanceStepsALiveGenerator : (0x000000000000000002#72).extractLsb' 0 8 = 0x02#8 ∧
    (withSTATE 1).STATE ≠ 0 ∧ (withSTATE 0).STATE = 0 := by decide

/-- Both sides of the range check, at max = min and max = min + 1. -/
theorem witness_RangeChecksThenAdvances : (0x000000000000000003#72).extractLsb' 0 8 = 0x03#8 ∧
    (5 : Int) ≤ 5 ∧ ((5 : Int) < 6 ∧ (withSTATE 0).STATE = 0) ∧ ((5 : Int) < 6 ∧ (withSTATE 1).STATE ≠ 0) := by decide

theorem witness_FloatAnswersTheFloatSample : (0x000000000000000004#72).extractLsb' 0 8 = 0x04#8 ∧
    (withSTATE 1).STATE ≠ 0 ∧ (withSTATE 0).STATE = 0 := by decide

theorem witness_SaveReturnsState : (0x000000000000000005#72).extractLsb' 0 8 = 0x05#8 := by decide

theorem witness_RestoreOverwritesState : (0x000000000000000006#72).extractLsb' 0 8 = 0x06#8 := by decide

/-- The ends of the reserved opcodes: 0x00, 0x07 and 0xFF. -/
theorem witness_ReservedOpcodeAnswersIllegalOp :
    (0x000000000000000000#72).extractLsb' 0 8 = 0x00#8 ∧
    0x07#8 ≤ (0x000000000000000007#72).extractLsb' 0 8 ∧
    0x07#8 ≤ (0x0000000000000000FF#72).extractLsb' 0 8 := by decide

theorem witness_ArithmeticShiftIsFloorOfSignedQuotient : 0 < 32 ∧ 31 < 32 := by decide

theorem witness_TransformIsTwoToOne : (S3inv 0#32).getLsbD 31 = false ∧ (S3inv 0xFFFFFFFF#32).getLsbD 31 = true := by decide

/-- The widest range and the narrowest. -/
theorem witness_RangeResultLiesInItsRange :
    ((Instr.range (-2147483648) 2147483647).wf = true ∧ (-2147483648 : Int) < 2147483647 ∧ (withSTATE 1).STATE ≠ 0) ∧
    ((Instr.range 2147483646 2147483647).wf = true ∧ (2147483646 : Int) < 2147483647 ∧ (withSTATE 1).STATE ≠ 0) := by decide

theorem witness_RangedSamplerBias :
    ((0 : Int) < 4294967295 ∧ (4294967295 : Int) - 0 ≤ 2 ^ 32 - 1 ∧ ((4294967294 : Nat) : Int) < 4294967295 - 0) ∧
    ((5 : Int) < 6 ∧ (6 : Int) - 5 ≤ 2 ^ 32 - 1 ∧ ((0 : Nat) : Int) < 6 - 5) := by decide

/-- Zero, the largest finite value, and the smallest. -/
theorem witness_FloatSampleIsNearest : f64Finite 0 ∧ f64Finite 0x7FEFFFFFFFFFFFFF#64 ∧ f64Finite 0xFFEFFFFFFFFFFFFF#64 := by
  refine ⟨?_, ?_, ?_⟩ <;> unfold f64Finite <;> decide

theorem f64Value_zero : f64Value 0x0#64 = 0 := by
  have e : ((0x0#64).extractLsb' 52 11).toNat = 0 := by decide
  have f : ((0x0#64).extractLsb' 0 52).toNat = 0 := by decide
  unfold f64Value
  simp only [e, f]
  simp

theorem f64Value_smallest : f64Value 0x1#64 = 1 / 2 ^ 1074 := by
  have e : ((0x1#64).extractLsb' 52 11).toNat = 0 := by decide
  have f : ((0x1#64).extractLsb' 0 52).toNat = 1 := by decide
  have m : (0x1#64).msb = false := by decide
  unfold f64Value
  simp only [e, f, m, if_true, Bool.false_eq_true, if_false, Nat.cast_one, one_mul]

/-- Two neighbouring values: zero and the smallest positive one. -/
theorem witness_FloatQuotientIsNeverATie : f64Finite 0x0#64 ∧ f64Finite 0x1#64 ∧ f64Value 0x0#64 < f64Value 0x1#64 ∧
    ∀ d : Data, f64Finite d → f64Value d ≤ f64Value 0x0#64 ∨ f64Value 0x1#64 ≤ f64Value d := by
  refine ⟨by unfold f64Finite; decide, by unfold f64Finite; decide, ?_, ?_⟩
  · rw [f64Value_zero, f64Value_smallest]
    exact div_pos one_pos (pow_pos two_pos _)
  · intro d _
    rw [f64Value_zero, f64Value_smallest]
    obtain ⟨N, hN⟩ : ∃ N : ℕ, N = 1074 := ⟨_, rfl⟩
    obtain ⟨σ, s, x, hσ, -, e⟩ := f64Value_dyadic d
    rw [e N hN, ← hN]
    have hB : (0 : ℚ) < 2 ^ N := pow_pos two_pos _
    have hs : (0 : ℚ) ≤ s := Nat.cast_nonneg s
    have hx : (1 : ℚ) ≤ 2 ^ x := one_le_pow₀ (by norm_num)
    rcases hσ with rfl | rfl
    · rcases Nat.eq_zero_or_pos s with rfl | hs1
      · exact .inl (by simp)
      · refine .inr (div_le_div_of_nonneg_right ?_ hB.le)
        have : (1 : ℚ) ≤ s := by exact_mod_cast hs1
        rw [Int.cast_one, one_mul]
        nlinarith
    · refine .inl (div_nonpos_of_nonpos_of_nonneg ?_ hB.le)
      rw [Int.cast_neg, Int.cast_one]
      nlinarith

theorem witness_FloatSampleIsStrictlyIncreasing :
    (0x0#32).toNat < (0x1#32).toNat ∧ (0xFFFFFFFE#32).toNat < (0xFFFFFFFF#32).toNat := by decide

theorem witness_FloatCommandStaysBelowOne : (withSTATE 0x4707E94A).STATE ≠ 0 ∧ (withSTATE 0xFC001FFF).STATE ≠ 0 := by decide

/-- ADVANCE from STATE 0. -/
theorem witness_ErrorsChangeNothingAndCarryNoData :
    performCommand 0x000000000000000002#72 (withSTATE 0) = .next { withSTATE 0 with rsp := some 0x000000000000000001#72 } ∧
    rspStatus 0x000000000000000001#72 ≠ 0x00#8 := ⟨rfl, by decide⟩

/-- Each of the five ways not to read STATE. -/
theorem witness_AccessToStateByCommand : opOf 0x000000000000000000#72 = 0x00#8 ∧ 0x07#8 ≤ opOf 0x000000000000000007#72 ∧
    opOf 0x000000000000000001#72 = 0x01#8 ∧ opOf 0x000000000000000006#72 = 0x06#8 ∧
    (opOf 0x000000050000000503#72 = 0x03#8 ∧ s32 (bOf 0x000000050000000503#72) ≤ s32 (aOf 0x000000050000000503#72)) := by decide

/-- Two states that differ in everything but STATE. -/
theorem witness_OnlyStateAndCommandDecideTheAnswer :
    (withSTATE 7).STATE = ({ withSTATE 7 with cmd := some 0x5#72, host := [Pins.take], taken := [0x0#72] } : State).STATE := by decide

theorem witness_CommandsLeaveThePortAlone :
    exec .save (withSTATE 7) = .next { withSTATE 7 with rsp := some 0x000000000000000700#72 } := rfl

/-- The advance that falls into zero, and INIT 0. -/
theorem witness_WaysFromLiveToInvalid :
    ((withSTATE 0xFC001FFF).isLive = true ∧ performCommand 0x000000000000000002#72 (withSTATE 0xFC001FFF) =
      .next { withSTATE 0 with rsp := some 0x000000000000000000#72 }) ∧
    ((withSTATE 1).isLive = true ∧ performCommand 0x000000000000000001#72 (withSTATE 1) =
      .next { withSTATE 0 with rsp := some 0x000000000000000000#72 }) := ⟨⟨rfl, rfl⟩, rfl, rfl⟩

theorem witness_RecoveryFromInvalidByCommand : (0x1#32 : Word) ≠ 0 ∧ (withSTATE 0).isInvalid = true := by decide

theorem witness_DecodeInvertsEncode : (Instr.range (-2147483648) 2147483647).wf = true ∧ (Instr.init 0xFFFFFFFF).wf = true := by decide

theorem witness_DecodedCommandsAreWellFormed :
    decode 0x7FFFFFFF8000000003#72 = .instr (.range (-2147483648) 2147483647) := by decide

/-- Two INIT words that differ in B, and two RANGE words that are the same. -/
theorem witness_IgnoredFieldsDoNotMatter :
    (opOf 0x000000010000000901#72 = opOf 0x000000000000000901#72 ∧
      aOf 0x000000010000000901#72 = aOf 0x000000000000000901#72 ∧ opOf 0x000000010000000901#72 ≠ 0x03#8) ∧
    (opOf 0x000000030000000103#72 = 0x03#8 ∧ aOf 0x000000030000000103#72 = 0x1#32 ∧
      bOf 0x000000030000000103#72 = 0x3#32) := by decide

/-- The ends of each operand range the assembler takes, and the first value past each. -/
theorem witness_AssemblerOperandRanges :
    ((0 : Int) ≤ 0 ∧ (0 : Int) ≤ 2 ^ 32 - 1) ∧ ((0 : Int) ≤ 4294967295 ∧ (4294967295 : Int) ≤ 2 ^ 32 - 1) ∧
    ((-1 : Int) < 0) ∧ ((2 : Int) ^ 32 - 1 < 4294967296) ∧
    ((-2 : Int) ^ 31 ≤ -2147483648 ∧ (2147483647 : Int) ≤ 2 ^ 31 - 1) ∧
    ¬ ((-2147483649 : Int) ≥ -2 ^ 31) ∧ ¬ ((2147483648 : Int) ≤ 2 ^ 31 - 1) := by decide

theorem witness_DisassemblyReassembles : decode 0xFFFFFFFBFFFFFFF603#72 = .instr (.range (-10) (-5)) ∧
    decode 0x000000000000000080#72 = .reserved 0x80#8 := by decide


/-- A state that holds the accepted command word `c`. -/
def accepted (c : CmdWord) : State := { withSTATE 7 with cmd := some c }

theorem witness_StepPerformsTheAcceptedCommand :
    ((accepted 0x000000000000000005#72).rsp = none ∧ (accepted 0x000000000000000005#72).pins.rst = false ∧
      decode 0x000000000000000005#72 = .instr .save) ∧
    ((accepted 0x000000000000000007#72).rsp = none ∧ (accepted 0x000000000000000007#72).pins.rst = false ∧
      decode 0x000000000000000007#72 = .reserved 0x07#8) := by decide

theorem witness_PlacedWordRunsNext : decodeTableWord 72 0x7FFFFFFF8000000003 = some (.range (-2147483648) 2147483647) := by decide

theorem witness_AcceptanceHandshake :
    (let s : State := { withSTATE 7 with host := [Pins.present 0x5#72] }; s.accepts s.pins = true) ∧
    ((withSTATE 7).cmd = none ∧ (withSTATE 7).rsp = none ∧ (withSTATE 7).pins.rst = false ∧
      (withSTATE 7).pins.cmdValid = false) := by decide

/-- A pending answer to SAVE, with the host's pins `p`. -/
def pending (p : Pins) : State :=
  { withSTATE 7 with cmd := some 0x000000000000000005#72, rsp := some 0x000000000000000700#72, host := [p] }

/-- An idle port; and the edge at which a pending response meets `rsp_ready` while `rst` is asserted. -/
theorem witness_ResetPinRestartsTheCore :
    ({ withSTATE 7 with host := [{ Pins.quiet with rst := true }] } : State).pins.rst = true ∧
    (let s := pending { Pins.take with rst := true }
     s.pins.rst = true ∧ s.pins.rspReady = true ∧ s.rsp.isSome = true) := by decide

/-- A command presented at the reset edge. -/
theorem witness_ResetEmptiesThePort :
    let s : State := { withSTATE 7 with host := [{ Pins.present 0x000000000000000005#72 with rst := true }] }
    s.pins.rst = true ∧ s.pins.cmdValid = true := by decide

theorem witness_ResponseHandshake :
    ((pending Pins.quiet).rsp = some 0x000000000000000700#72 ∧ (pending Pins.quiet).pins.rst = false ∧
      (pending Pins.quiet).pins.rspReady = false) ∧
    ((pending Pins.take).pins.rst = false ∧ (pending Pins.take).pins.rspReady = true ∧
      (rspStatus 0x000000000000000700#72).toNat ≤ 3) := by decide

/-- A pending response, a response taken, and the invariant. -/
theorem pending_inv (p : Pins) : ({ pending p with taken := [0x000000000000000002#72] } : State).Inv := by
  refine ⟨fun h => (by cases h), ?_, ?_⟩
  · intro c r hc hr
    cases hc
    cases hr
    show Answers 0x000000000000000005#72 7 0x000000000000000700#72
    unfold Answers
    rw [show decode 0x000000000000000005#72 = .instr .save by decide]
    show _ = _
    decide
  · intro r hr
    rw [List.mem_singleton.mp hr]
    unfold RspLegal
    decide

theorem witness_StepKeepsThePortInvariant : ∃ s t : State, s.Inv ∧ step s = .next t ∧ t ≠ s :=
  ⟨_, _, pending_inv Pins.take, rfl, by decide⟩

theorem witness_StepIsTotalUnderTheInvariant : ∃ s : State, s.Inv ∧ s.rsp ≠ none :=
  ⟨_, pending_inv Pins.take, by decide⟩

theorem witness_PresentedCommandIsSoonAccepted : ∃ (s : State) (c : CmdWord), s.Inv ∧ s.cmd ≠ none ∧
    s.host = List.replicate 3 { rst := false, cmdValid := true, cmd := c, rspReady := true } ++ [] := by
  refine ⟨{ accepted 0x5#72 with
    host := List.replicate 3 { rst := false, cmdValid := true, cmd := 0x2#72, rspReady := true } }, 0x2#72, ?_, by decide, rfl⟩
  exact ⟨fun _ => rfl, fun _ _ _ h => (by cases h), fun _ h => (by cases h)⟩

/-- ADVANCE after an idle step, its response stalled twice; SAVE presented in the last two of those steps;
RESTORE with nothing early and `rsp_ready` low. -/
def script : List Delivery :=
  [⟨0, 1, 0x000000000000000002#72, 2, true⟩, ⟨2, 0, 0x000000000000000005#72, 0, true⟩,
    ⟨0, 0, 0x000000000000002A06#72, 1, false⟩]

theorem witness_PortRunsRefineTransactionRuns :
    let s : State := { withSTATE 1 with host := hostScript script ++ [Pins.quiet] }
    s.portEmpty ∧ s.host = hostScript script ++ [Pins.quiet] := ⟨⟨rfl, rfl⟩, rfl⟩

/-- After four steps of the script SAVE is on the pins, the response to ADVANCE is pending, and SAVE is not
accepted: the case the host's duty is about. -/
theorem witness_ScriptedHostsHoldTheirCommands :
    let s : State := { withSTATE 1 with host := hostScript script }
    s.portEmpty ∧ s.host = hostScript script ∧ ∃ t, Sys2Proof.core.run 4 s = .next t ∧
      t.pins.cmdValid = true ∧ t.accepts t.pins = false ∧ t.rsp.isSome = true :=
  ⟨⟨rfl, rfl⟩, rfl, _, rfl, by decide, by decide, by decide⟩

/-- A host that presents SAVE and takes responses at every step; after two steps and after three. -/
theorem witness_RunUnderAnyHostIsATransactionRun :
    let s : State := { withSTATE 7 with host := List.replicate 5 (Pins.offer 0x000000000000000005#72 true) }
    s.portEmpty ∧ (∀ p ∈ s.host, p.rst = false) ∧ acceptedIn 3 s = [0x000000000000000005#72] ∧
      acceptedIn 4 s = [0x000000000000000005#72, 0x000000000000000005#72] := by
  refine ⟨⟨rfl, rfl⟩, ?_, by decide, by decide⟩
  intro p hp
  rw [List.eq_of_mem_replicate hp]
  rfl

/-- INIT 0, then ADVANCE, RESTORE 0, FLOAT and a valid RANGE. -/
theorem witness_ZeroSeedRejectsAdvancesUntilReseeded :
    opOf 0x000000000000000001#72 = 0x01#8 ∧ aOf 0x000000000000000001#72 = 0#32 ∧
    (∀ c ∈ [0x000000000000000002#72, 0x000000000000000006#72, 0x000000000000000004#72, 0x000000030000000103#72],
      opOf c = 0x01#8 ∨ opOf c = 0x06#8 → aOf c = 0#32) ∧
    (opOf 0x000000030000000103#72 = 0x03#8 ∧ s32 (aOf 0x000000030000000103#72) < s32 (bOf 0x000000030000000103#72)) := by
  refine ⟨by decide, by decide, ?_, by decide⟩
  simp only [List.mem_cons, List.not_mem_nil, or_false]
  rintro c (rfl | rfl | rfl | rfl) <;> decide

/-- SAVE from 42 and the RESTORE of what it answers. -/
theorem witness_RestoreOfASaveReplaysTheRun : opOf 0x000000000000000005#72 = 0x05#8 ∧ opOf 0x000000000000002A06#72 = 0x06#8 ∧
    aOf 0x000000000000002A06#72 = (rspData (transact 42 0x000000000000000005#72).2).setWidth 32 := by decide

/-- Two instances, the second of which performs an accepted ADVANCE. -/
theorem witness_InstancesShareNothing :
    ∃ Q, Platform.stepAt 1 [withSTATE 7, { withSTATE 1 with cmd := some 0x000000000000000002#72 }] = .next Q ∧ Q.length = 2 :=
  ⟨_, rfl, by decide⟩

end Sys2Proof.Tests
end

/-! ## Reset, and the instances of a platform (10_state.md) -/
section

namespace Sys2Proof.Machine

/-! ### The ready pin and the reset pin -/

theorem State.cmdReady_of_rst {p : Pins} (h : p.rst = true) (s : State) : s.cmdReady p = false := by
  simp [State.cmdReady, h]

theorem State.cmdReady_of_empty {p : Pins} {s : State} (h : p.rst = false) (hc : s.cmd = none)
    (hr : s.rsp = none) : s.cmdReady p = true := by
  simp [State.cmdReady, h, hc, hr]

theorem State.accepts_of_not_ready {p : Pins} {s : State} (h : s.cmdReady p = false) :
    s.accepts p = false := by
  simp [State.accepts, h]

theorem State.rspValid_of_no_rsp {s : State} (h : s.rsp = none) : s.rspValid = false := by
  simp [State.rspValid, h]

theorem step_of_rst {s : State} (h : s.pins.rst = true) : step s = .next s.nextPins.resetCore :=
  portStep_rst h s.nextPins

/-! ### What a step of a platform can do -/

theorem Platform.stepAt_absent {k : Nat} {P : Platform} (h : P[k]? = none) : P.stepAt k = .next P := by
  simp [Platform.stepAt, h]

/-- Everything a platform step that answers a next platform can have done: there is no instance `k`, or
instance `k` is replaced by its own next state. -/
theorem Platform.stepAt_cases {k : Nat} {P Q : Platform} (h : P.stepAt k = .next Q) :
    (P[k]? = none ∧ Q = P) ∨
    (∃ s t, P[k]? = some s ∧ step s = .next t ∧ Q = P.set k t) := by
  rcases hk : P[k]? with _ | s
  · rw [Platform.stepAt_absent hk] at h
    cases h
    exact .inl ⟨rfl, rfl⟩
  · rcases ht : step s with t | f | r <;> simp only [Platform.stepAt, hk, ht] at h <;> cases h
    exact .inr ⟨s, t, rfl, ht, rfl⟩

/-! ### The obligations -/

/-- Settles O40: the reset state's fields, and that the reset value of STATE is not 0. -/
theorem resetLeavesSeedOneAndAnEmptyPort : Obligations.ResetLeavesSeedOneAndAnEmptyPort :=
  ⟨rfl, rfl, rfl, by decide⟩

/-- Settles O56, by what a platform step can have done: nothing, where there is no instance `k`, or the
replacement of entry `k` alone. -/
theorem instancesShareNothing : Obligations.InstancesShareNothing := by
  intro k P Q h
  obtain ⟨hk, rfl⟩ | ⟨s, t, hk, hst, rfl⟩ := Platform.stepAt_cases h
  · exact ⟨rfl, fun _ _ => rfl, fun s hs => by simp [hk] at hs⟩
  · refine ⟨List.length_set, fun j hj => List.getElem?_set_ne hj.symm, fun s' hs' => ?_⟩
    have hkP : k < P.length := (List.getElem?_eq_some_iff.mp hk).1
    obtain rfl : s = s' := Option.some.inj (hk.symm.trans hs')
    exact ⟨t, hst, List.getElem?_set_self hkP⟩

/-- Settles O58: `rst` masks `cmd_ready`, and the step is the reset of the core, whose port is empty. -/
theorem resetEmptiesThePort : Obligations.ResetEmptiesThePort := by
  intro s hrst
  have hready : s.cmdReady s.pins = false := s.cmdReady_of_rst hrst
  exact ⟨hready, State.accepts_of_not_ready hready, s.nextPins.resetCore, step_of_rst hrst, rfl, rfl,
    State.rspValid_of_no_rsp rfl, fun p hp => State.cmdReady_of_empty hp rfl rfl⟩

end Sys2Proof.Machine
end

/-! ## The fields of a command word, and the operands an assembler takes (30_encoding.md) -/
section

namespace Sys2Proof

/-! ### The fields and the decoder -/

theorem getLsbD_opOf (w : CmdWord) {i : Nat} (hi : i < 8) : (opOf w).getLsbD i = w.getLsbD i := by
  simp [opOf, hi]

theorem getLsbD_aOf (w : CmdWord) {i : Nat} (hi : i < 32) : (aOf w).getLsbD i = w.getLsbD (8 + i) := by
  simp [aOf, hi]

theorem getLsbD_bOf (w : CmdWord) {i : Nat} (hi : i < 32) : (bOf w).getLsbD i = w.getLsbD (40 + i) := by
  simp [bOf, hi]

@[simp] theorem aOf_encode (i : Instr) : aOf (encode i) = fieldA i := aOf_cmdWord ..

@[simp] theorem bOf_encode (i : Instr) : bOf (encode i) = fieldB i := bOf_cmdWord ..

/-- Words that agree in the opcode and in the fields that opcode reads decode alike (R63, R64, R68). -/
theorem decode_eq_of_read_fields_eq {c d : CmdWord} (hop : opOf c = opOf d)
    (ha : opOf c = 0x01#8 ∨ opOf c = 0x03#8 ∨ opOf c = 0x06#8 → aOf c = aOf d)
    (hb : opOf c = 0x03#8 → bOf c = bOf d) : decode c = decode d := by
  obtain ⟨h, hc⟩ | ⟨h, hc⟩ | ⟨h, hc⟩ | ⟨h, hc⟩ | ⟨h, hc⟩ | ⟨h, hc⟩ | ⟨h, hc⟩ := decode_cases c
  · rw [hc, decode_of_op_01 (hop ▸ h), ha (.inl h)]
  · rw [hc, decode_of_op_02 (hop ▸ h)]
  · rw [hc, decode_of_op_03 (hop ▸ h), ha (.inr (.inl h)), hb h]
  · rw [hc, decode_of_op_04 (hop ▸ h)]
  · rw [hc, decode_of_op_05 (hop ▸ h)]
  · rw [hc, decode_of_op_06 (hop ▸ h), ha (.inr (.inr h))]
  · rw [hc, decode_of_reserved_op (hop ▸ (reserved_op_iff _).mpr h), hop]

theorem fitsS32_iff {n : Int} : fitsS32 n = true ↔ -2 ^ 31 ≤ n ∧ n ≤ 2 ^ 31 - 1 := by
  simp [fitsS32]

namespace Machine

/-- The command word acts through what it decodes to alone. -/
theorem performCommand_eq_of_decode_eq {c d : CmdWord} (h : decode c = decode d) (s : State) :
    performCommand c s = performCommand d s := by
  simp [performCommand, h]

/-! ### The operands an assembler takes or refuses -/

theorem assemble_restore_of_fits {n : Int} (h : 0 ≤ n ∧ n ≤ 2 ^ 32 - 1) :
    assemble (.restore n) = some (encode (.restore (u32 n))) :=
  if_pos h

theorem assemble_restore_of_not_fits {n : Int} (h : ¬ (0 ≤ n ∧ n ≤ 2 ^ 32 - 1)) :
    assemble (.restore n) = none :=
  if_neg h

theorem assemble_range_of_fits {m n : Int} (hm : fitsS32 m = true) (hn : fitsS32 n = true) :
    assemble (.range m n) = some (encode (.range m n)) := by
  simp [assemble, hm, hn]

theorem assemble_range_of_not_fits {m n : Int} (h : ¬ fitsS32 m = true ∨ ¬ fitsS32 n = true) :
    assemble (.range m n) = none := by
  have hmn : ¬ (fitsS32 m && fitsS32 n) = true := by
    rwa [Bool.and_eq_true, not_and_or]
  exact if_neg hmn

/-! ### The obligations -/

/-- Settles O35: the decoder reads only those fields, a command acts through its decoding, and an encoded
word has the fields `fieldA` and `fieldB`, which are 0 where the command ignores them. -/
theorem ignoredFieldsDoNotMatter : Obligations.IgnoredFieldsDoNotMatter := by
  refine ⟨fun c d hop ha hb => ?_, ?_, ?_⟩
  · have hdec : decode c = decode d := decode_eq_of_read_fields_eq hop ha hb
    exact ⟨hdec, performCommand_eq_of_decode_eq hdec⟩
  · simp [fieldA, fieldB]
  · simp [fieldB]

/-- Settles O38, by the two outcomes of each range check; INIT has none. -/
theorem assemblerOperandRanges : Obligations.AssemblerOperandRanges := by
  refine ⟨rfl, fun n => rfl, fun n h0 h1 => assemble_restore_of_fits ⟨h0, h1⟩, fun n h => ?_,
    fun m n hm hn => ?_, fun m n h => ?_⟩
  · exact assemble_restore_of_not_fits (by omega)
  · exact assemble_range_of_fits (fitsS32_iff.mpr hm) (fitsS32_iff.mpr hn)
  · exact assemble_range_of_not_fits (h.imp (mt fitsS32_iff.mp) (mt fitsS32_iff.mp))

/-- Settles O7: such a word decodes to a reserved opcode, and that raises ILLEGAL_OP. -/
theorem reservedOpcodeAnswersIllegalOp : Obligations.ReservedOpcodeAnswersIllegalOp :=
  fun _ s h => performCommand_reserved (decode_of_reserved_op h) s

/-- Settles O30: each field bit by bit, and the word put together again from its fields. -/
theorem fieldsOfACommandWord : Obligations.FieldsOfACommandWord :=
  fun c => ⟨fun _ => getLsbD_opOf c, fun _ => getLsbD_aOf c, fun _ => getLsbD_bOf c, cmdWord_fields c⟩

end Machine

end Sys2Proof
end

/-! ## INIT, and a generator whose seed is 0 (40_construction.md) -/
section

namespace Sys2Proof.Machine

/-! ### Single transactions -/

theorem exec_init (seed : Word) (s : State) :
    exec (.init seed) s = .next ((s.setSTATE seed).respond .ok 0) := rfl

/-- INIT and RESTORE write the A field to STATE and answer OK with data 0 (R90, R161). -/
theorem transact_of_load {c : CmdWord} (h : opOf c = 0x01#8 ∨ opOf c = 0x06#8) (st : Word) :
    transact st c = (aOf c, 0) :=
  if_pos h

/-- From STATE 0 every advance-based command raises InvalidState (R181). -/
theorem transact_zero_of_advance {c : CmdWord}
    (h : opOf c = 0x02#8 ∨ opOf c = 0x04#8 ∨ opOf c = 0x03#8 ∧ s32 (aOf c) < s32 (bOf c)) :
    transact 0 c = (0, 0#64 ++ 0x01#8) := by
  unfold opOf s32 aOf bOf at h
  obtain hop | hop | ⟨hop, hlt⟩ := h
  · simp [transact, hop]
  · simp [transact, hop]
  · simp only [transact, hop, if_neg (Int.not_le.mpr hlt)]
    rfl

/-- Only INIT and RESTORE lead away from STATE 0: nothing else writes STATE without an advance. -/
theorem transact_zero_STATE_of_not_load {c : CmdWord} (h : ¬ (opOf c = 0x01#8 ∨ opOf c = 0x06#8)) :
    (transact 0 c).1 = 0 := by
  unfold opOf at h
  simp only [transact, if_neg h, if_true]
  split_ifs <;> rfl

/-- STATE 0 stays 0 under a command that loads nothing but 0. -/
theorem transact_zero_STATE {c : CmdWord} (h : opOf c = 0x01#8 ∨ opOf c = 0x06#8 → aOf c = 0#32) :
    (transact 0 c).1 = 0 := by
  by_cases hload : opOf c = 0x01#8 ∨ opOf c = 0x06#8
  · rw [transact_of_load hload, h hload]
    rfl
  · exact transact_zero_STATE_of_not_load hload

/-! ### Runs whose commands keep STATE -/

/-- If every command keeps the start STATE, the run ends there, and each command is answered as from there. -/
theorem runOf_of_keeps_STATE {st : Word} {cs : List CmdWord} (h : ∀ c ∈ cs, (transact st c).1 = st) :
    runOf st cs = (st, cs.map fun c => (transact st c).2) := by
  induction cs with
  | nil => rfl
  | cons c cs ih =>
    obtain ⟨hc, hcs⟩ := List.forall_mem_cons.mp h
    simp [runOf_cons, hc, ih hcs]

/-! ### The obligations -/

/-- Settles O54: INIT 0 leaves STATE 0, which every following command keeps, so each is answered as from
STATE 0. -/
theorem zeroSeedRejectsAdvancesUntilReseeded : Obligations.ZeroSeedRejectsAdvancesUntilReseeded := by
  intro st c0 cs hop hseed hcs
  have hinit : transact st c0 = (0, 0) := by rw [transact_of_load (.inl hop), hseed]; rfl
  have hrun : runOf 0 cs = (0, cs.map fun c => (transact 0 c).2) :=
    runOf_of_keeps_STATE fun c hc => transact_zero_STATE (hcs c hc)
  rw [runOf_cons, hinit, hrun]
  refine ⟨rfl, rfl, ?_⟩
  rw [List.zip_cons_cons, ← List.map_prod_left_eq_zip, List.forall_mem_cons, List.forall_mem_map]
  refine ⟨fun hadv => ?_, fun c _ hadv => ?_⟩
  · simp [hop] at hadv
  · exact congrArg Prod.snd (transact_zero_of_advance hadv)

/-- Settles O1: the decoder's row 0x01, and INIT's next state. -/
theorem initLoadsItsSeed : Obligations.InitLoadsItsSeed :=
  ⟨fun _ => decode_of_op_01, exec_init⟩

end Sys2Proof.Machine
end

/-! ## ADVANCE and the transform (41_advance.md) -/
section

namespace Sys2Proof.Machine

/-- Step 2 by the bit formula of R102: 17 copies of bit 31 above bits 31 to 17. -/
theorem S2_eq_xor_fill_append (x : Word) :
    S2 x = x ^^^ ((if x.getLsbD 31 then BitVec.allOnes 17 else 0#17) ++ x.extractLsb' 17 15) := by
  apply BitVec.eq_of_getLsbD_eq
  intro i hi
  rw [S2_getLsbD x hi, BitVec.getLsbD_xor, BitVec.getLsbD_append]
  congr 1
  by_cases hlow : i < 15
  · simp [hlow]
  · have hfill : i - 15 < 17 := by omega
    rw [if_neg hlow, if_neg hlow]
    cases x.getLsbD 31 with
    | false => exact BitVec.getLsbD_zero.symm
    | true => simp only [if_true, BitVec.getLsbD_allOnes, hfill, decide_true]

/-! ### The obligations -/

/-- Settles O9: the outer steps are the shifts by definition, and the middle step is the bit formula of
R102. -/
theorem transformIsThreeXorShifts : Obligations.TransformIsThreeXorShifts :=
  fun x => congrArg S3 (S2_eq_xor_fill_append (S1 x))

/-- Settles O2: the decoder's row 0x02, and the two outcomes of the advance procedure. -/
theorem advanceStepsALiveGenerator : Obligations.AdvanceStepsALiveGenerator :=
  ⟨fun _ => decode_of_op_02, fun _ => advanceThen_live zext64, fun _ => advanceThen_invalid zext64⟩

end Sys2Proof.Machine
end

/-! ## RANGE (42_ranged_sampler.md) -/
section

namespace Sys2Proof.Machine

/-- Settles O3: the decoder's row 0x03, the empty range refused before STATE is read, and past that check
the two outcomes of the advance procedure. -/
theorem rangeChecksThenAdvances : Obligations.RangeChecksThenAdvances := by
  refine ⟨fun _ => decode_of_op_03, fun min max s hempty => ?_, fun min max s hlt hzero => ?_,
    fun min max s hlt hlive => ?_⟩
  · exact execRange_empty hempty s
  · exact (execRange_valid hlt s).trans (advanceThen_invalid _ hzero)
  · exact (execRange_valid hlt s).trans (advanceThen_live _ hlive)

end Sys2Proof.Machine
end

/-! ## FLOAT (43_float_sampler.md) -/
section

namespace Sys2Proof.Machine

theorem exec_float (s : State) : exec .float s = advanceThen FSbits s := rfl

/-! ### The obligations -/

/-- Settles O4: the decoder's row 0x04, and the two outcomes of the advance procedure, where `FSbits`
divides by exactly 4294967295. -/
theorem floatAnswersTheFloatSample : Obligations.FloatAnswersTheFloatSample := by
  refine ⟨fun _ => decode_of_op_04, fun s hlive => ?_, fun s hzero => ?_⟩
  · exact (exec_float s).trans (advanceThen_live FSbits hlive)
  · exact (exec_float s).trans (advanceThen_invalid FSbits hzero)

end Sys2Proof.Machine
end

/-! ## SAVE and RESTORE (44_snapshot_restore.md) -/
section

namespace Sys2Proof.Machine

/-- SAVE has no check for STATE 0 and writes nothing but its response (R160). -/
theorem exec_save (s : State) : exec .save s = .next (s.respond .ok (zext64 s.STATE)) := rfl

/-- RESTORE writes its operand to STATE as it stands, 0 included (R161). -/
theorem exec_restore (value : Word) (s : State) :
    exec (.restore value) s = .next ((s.setSTATE value).respond .ok 0) := rfl

/-! ### The obligations -/

/-- Settles O5: the decoder's row 0x05, and SAVE's next state. -/
theorem saveReturnsState : Obligations.SaveReturnsState :=
  ⟨fun _ => decode_of_op_05, exec_save⟩

/-- Settles O6: the decoder's row 0x06, and RESTORE's next state. -/
theorem restoreOverwritesState : Obligations.RestoreOverwritesState :=
  ⟨fun _ => decode_of_op_06, exec_restore⟩

end Sys2Proof.Machine
end

/-! ## Errors and recovery (60_exceptions.md) -/
section

namespace Sys2Proof.Machine

/-! ### The first error that applies -/

/-- The error a command word raises from STATE `st`: the first that applies, in the order of R185. -/
def firstError (c : CmdWord) (st : Word) : Option CmdError :=
  if opOf c = 0x00#8 ∨ 0x07#8 ≤ opOf c then some .illegalOp
  else if opOf c = 0x03#8 ∧ s32 (bOf c) ≤ s32 (aOf c) then some .invalidRange
  else if (opOf c = 0x02#8 ∨ opOf c = 0x03#8 ∨ opOf c = 0x04#8) ∧ st = 0 then some .invalidState
  else none

/-- INIT, SAVE and RESTORE have no error, from STATE 0 either. -/
theorem firstError_of_no_check {c : CmdWord} (h : opOf c = 0x01#8 ∨ opOf c = 0x05#8 ∨ opOf c = 0x06#8)
    (st : Word) : firstError c st = none := by
  obtain hop | hop | hop := h <;> simp [firstError, hop]

theorem firstError_of_reserved {c : CmdWord} (h : opOf c = 0x00#8 ∨ 0x07#8 ≤ opOf c) (st : Word) :
    firstError c st = some .illegalOp :=
  if_pos h

theorem firstError_of_empty_range {c : CmdWord} (hop : opOf c = 0x03#8) (h : s32 (bOf c) ≤ s32 (aOf c))
    (st : Word) : firstError c st = some .invalidRange := by
  simp [firstError, hop, h]

/-- ADVANCE, FLOAT and a valid RANGE can meet InvalidState only. -/
theorem firstError_of_advance {c : CmdWord}
    (h : opOf c = 0x02#8 ∨ opOf c = 0x04#8 ∨ opOf c = 0x03#8 ∧ s32 (aOf c) < s32 (bOf c)) (st : Word) :
    firstError c st = if st = 0 then some .invalidState else none := by
  obtain hop | hop | ⟨hop, hlt⟩ := h
  · simp [firstError, hop]
  · simp [firstError, hop]
  · simp [firstError, hop, Int.not_le.mpr hlt]

/-! ### A command raises its first error -/

/-- The outcome `o` of a command from `s` is what the command's first error `err` asks for: that error
raised (R180) or, without one, some STATE written and OK answered. -/
def AnswersFirstError (err : Option CmdError) (s : State) (o : Host.Outcome State Fault Refusal) : Prop :=
  match err with
  | some e => o = raise e s
  | none => ∃ v d, o = .next ((s.setSTATE v).respond .ok d)

theorem advanceThen_answersFirstError (f : Word → Data) (s : State) :
    AnswersFirstError (if s.STATE = 0 then some .invalidState else none) s (advanceThen f s) := by
  obtain ⟨hzero, h⟩ | ⟨hlive, h⟩ := advanceThen_cases f s
  · rw [if_pos hzero]
    exact h
  · rw [if_neg hlive]
    exact ⟨_, _, h⟩

/-- Every command raises its first error, or answers OK where it has none (R185). -/
theorem performCommand_answersFirstError (c : CmdWord) (s : State) :
    AnswersFirstError (firstError c s.STATE) s (performCommand c s) := by
  obtain ⟨hop, hc⟩ | ⟨hop, hc⟩ | ⟨hop, hc⟩ | ⟨hop, hc⟩ | ⟨hop, hc⟩ | ⟨hop, hc⟩ | ⟨hop, hc⟩ := decode_cases c
  · rw [firstError_of_no_check (.inl hop), performCommand_instr hc]
    exact ⟨_, _, exec_init _ s⟩
  · rw [firstError_of_advance (.inl hop), performCommand_instr hc]
    exact advanceThen_answersFirstError zext64 s
  · rw [performCommand_instr hc]
    by_cases hlt : s32 (aOf c) < s32 (bOf c)
    · rw [firstError_of_advance (.inr (.inr ⟨hop, hlt⟩)), exec, execRange_valid hlt]
      exact advanceThen_answersFirstError _ s
    · have hempty : s32 (bOf c) ≤ s32 (aOf c) := Int.not_lt.mp hlt
      rw [firstError_of_empty_range hop hempty]
      exact execRange_empty hempty s
  · rw [firstError_of_advance (.inr (.inl hop)), performCommand_instr hc]
    exact advanceThen_answersFirstError FSbits s
  · rw [firstError_of_no_check (.inr (.inl hop)), performCommand_instr hc]
    exact ⟨s.STATE, _, exec_save s⟩
  · rw [firstError_of_no_check (.inr (.inr hop)), performCommand_instr hc]
    exact ⟨_, _, exec_restore _ s⟩
  · rw [firstError_of_reserved ((reserved_op_iff _).mpr hop)]
    exact performCommand_reserved hc s

/-- The one response has the status code of the first error, or OK. -/
theorem performCommand_status (c : CmdWord) (s : State) :
    ∃ t r, performCommand c s = .next t ∧ t.rsp = some r ∧
      rspStatus r = statusCode ((firstError c s.STATE).elim .ok errorStatus) := by
  have hans := performCommand_answersFirstError c s
  generalize firstError c s.STATE = err at hans ⊢
  cases err with
  | none =>
    obtain ⟨v, d, hnext⟩ := hans
    exact ⟨_, _, hnext, rfl, rspStatus_rspWord .ok d⟩
  | some e => exact ⟨_, _, hans, rfl, rspStatus_rspWord (errorStatus e) 0⟩

/-! ### The obligations -/

/-- Settles O23: without an error the status is OK; with one the next state is that of `raise`, which keeps
all but the response and answers data 0. -/
theorem errorsChangeNothingAndCarryNoData : Obligations.ErrorsChangeNothingAndCarryNoData := by
  intro c s t r hnext hrsp hstatus
  have hans := performCommand_answersFirstError c s
  rw [hnext] at hans
  generalize firstError c s.STATE = err at hans
  cases err with
  | none =>
    obtain ⟨v, d, ⟨⟩⟩ := hans
    cases hrsp
    exact absurd (rspStatus_rspWord .ok d) hstatus
  | some e =>
    cases hans
    cases hrsp
    exact ⟨rfl, rspData_rspWord _ 0⟩

/-- Settles O24: the status is the code of the first error, and R185's order is that of `firstError`. -/
theorem statusFollowsTheErrorPriority : Obligations.StatusFollowsTheErrorPriority := by
  intro c s
  obtain ⟨t, r, hnext, hrsp, hstatus⟩ := performCommand_status c s
  refine ⟨t, r, hnext, hrsp, hstatus.trans ?_⟩
  unfold firstError
  split_ifs <;> rfl

/-- Settles O29: INIT and RESTORE have the same next state, which holds the nonzero value, and from there
the advance procedure succeeds. -/
theorem recoveryFromInvalidByCommand : Obligations.RecoveryFromInvalidByCommand := by
  intro v s hv _ i hi
  have hload : exec i s = .next ((s.setSTATE v).respond .ok 0) := by
    obtain rfl | rfl := List.mem_pair.mp hi
    · exact exec_init v s
    · exact exec_restore v s
  exact ⟨_, _, hload, bne_iff_ne.mpr hv, advanceThen_live zext64 hv, rfl⟩

end Sys2Proof.Machine
end

/-! ## Decoding against encoding, and the readings of patterns (00_scope.md, 30_encoding.md) -/
section

namespace Sys2Proof

/-! ### The readings of a pattern -/

/-- The signed reading of a pattern undoes `u32` on the integers that fit (R15). -/
theorem s32_u32 {n : Int} (h : fitsS32 n = true) : s32 (u32 n) = n := by
  obtain ⟨hlo, hhi⟩ := fitsS32_iff.mp h
  exact BitVec.toInt_ofInt_eq_self (by norm_num) hlo (by omega)

@[simp] theorem u32_natCast_toNat (v : Word) : u32 (v.toNat : Int) = v := by
  rw [u32, BitVec.ofInt_natCast, BitVec.ofNat_toNat, BitVec.setWidth_eq]

theorem s32_eq_ite (v : Word) :
    s32 v = if v.getLsbD 31 then (v.toNat : Int) - (2 : Int) ^ 32 else (v.toNat : Int) := by
  rw [s32, BitVec.toInt_eq_msb_cond, BitVec.msb_eq_getLsbD_last]
  rfl

theorem toNat_u32 (n : Int) : ((u32 n).toNat : Int) = n % 2 ^ 32 := by
  rw [u32, BitVec.toNat_ofInt, Int.toNat_of_nonneg (Int.emod_nonneg _ (by norm_num))]
  rfl

theorem Machine.toNat_zext64 (v : Word) : (Machine.zext64 v).toNat = v.toNat :=
  BitVec.toNat_setWidth_of_le (by norm_num)

theorem Machine.toInt_sext64 (v : Word) : (Machine.sext64 v).toInt = s32 v :=
  BitVec.toInt_signExtend_of_le (by norm_num)

/-! ### Decoding against encoding -/

@[simp] theorem opOf_encode (i : Instr) : opOf (encode i) = opcode i := opOf_cmdWord ..

/-- Encoding loses nothing of a well-formed command: only RANGE's operands change form on the way (R73). -/
theorem decode_encode {i : Instr} (h : i.wf = true) : decode (encode i) = .instr i := by
  cases i with
  | init seed => rw [decode_of_op_01 (opOf_encode _), aOf_encode, fieldA]
  | advance => exact decode_of_op_02 (opOf_encode _)
  | range min max =>
    obtain ⟨hmin, hmax⟩ := Bool.and_eq_true_iff.mp h
    rw [decode_of_op_03 (opOf_encode _), aOf_encode, bOf_encode, fieldA, fieldB, s32_u32 hmin, s32_u32 hmax]
  | float => exact decode_of_op_04 (opOf_encode _)
  | save => exact decode_of_op_05 (opOf_encode _)
  | restore value => rw [decode_of_op_06 (opOf_encode _), aOf_encode, fieldA]

/-- Whatever decodes is well formed and is the command of the word's opcode (R64, R65). -/
theorem wf_and_opcode_of_decode {c : CmdWord} {i : Instr} (h : decode c = .instr i) :
    i.wf = true ∧ opcode i = opOf c := by
  obtain ⟨hop, hc⟩ | ⟨hop, hc⟩ | ⟨hop, hc⟩ | ⟨hop, hc⟩ | ⟨hop, hc⟩ | ⟨hop, hc⟩ | ⟨-, hc⟩ := decode_cases c <;>
    cases hc.symm.trans h
  · exact ⟨rfl, hop.symm⟩
  · exact ⟨rfl, hop.symm⟩
  · exact ⟨Bool.and_eq_true_iff.mpr ⟨fitsS32_s32 _, fitsS32_s32 _⟩, hop.symm⟩
  · exact ⟨rfl, hop.symm⟩
  · exact ⟨rfl, hop.symm⟩
  · exact ⟨rfl, hop.symm⟩

theorem decode_reserved_iff (c : CmdWord) :
    (∃ op, decode c = .reserved op) ↔ (opOf c = 0x00#8 ∨ 0x07#8 ≤ opOf c) := by
  refine ⟨fun ⟨op, h⟩ => ?_, fun h => ⟨_, decode_of_reserved_op h⟩⟩
  obtain ⟨-, hc⟩ | ⟨-, hc⟩ | ⟨-, hc⟩ | ⟨-, hc⟩ | ⟨-, hc⟩ | ⟨-, hc⟩ | ⟨hop, hc⟩ := decode_cases c <;>
    cases hc.symm.trans h
  exact (reserved_op_iff _).mpr hop

namespace Machine

/-! ### A word put together again from its parts -/

/-- A response word is its data above its status (R62). -/
theorem toNat_rsp (r : RspWord) : r.toNat = (rspData r).toNat * 2 ^ 8 + (rspStatus r).toNat := by
  have hr := r.isLt
  simp only [rspData, rspStatus, BitVec.extractLsb'_toNat, Nat.shiftRight_eq_div_pow]
  omega

theorem append_bytes (v : Word) :
    v.extractLsb' 24 8 ++ v.extractLsb' 16 8 ++ v.extractLsb' 8 8 ++ v.extractLsb' 0 8 = v := by
  rw [BitVec.extractLsb'_append_extractLsb'_eq_extractLsb' (show 24 = 16 + 8 from rfl),
    BitVec.extractLsb'_append_extractLsb'_eq_extractLsb' (show 16 = 8 + 8 from rfl),
    BitVec.extractLsb'_append_extractLsb'_eq_extractLsb' (show 8 = 0 + 8 from rfl)]
  exact BitVec.extractLsb'_eq_self

/-! ### The obligations -/

/-- Settles O33: every opcode decodes to its own row, and RANGE's operands are read back as they were. -/
theorem decodeInvertsEncode : Obligations.DecodeInvertsEncode :=
  fun _ => decode_encode

/-- Settles O34: what decodes is well formed, so that encoding it and decoding again gives it back. -/
theorem decodedCommandsAreWellFormed : Obligations.DecodedCommandsAreWellFormed := by
  intro c i h
  obtain ⟨hwf, hop⟩ := wf_and_opcode_of_decode h
  exact ⟨hwf, (opOf_encode i).trans hop, (decode_encode hwf).trans h.symm⟩

/-- Settles O36: the six rows of the decoder leave exactly these opcodes. -/
theorem reservedOpcodesExactly : Obligations.ReservedOpcodesExactly := by
  intro c
  rw [decode_reserved_iff, BitVec.toNat_eq, BitVec.le_def]
  rfl

/-- Settles O37, by evaluating the assembler and the decoder on each row of R75. -/
theorem exampleWordsDecode : Obligations.ExampleWordsDecode := by
  unfold Obligations.ExampleWordsDecode
  decide

/-- Settles O31: the word put together from its fields, and the fields of a word that was built. -/
theorem fieldsOfAResponseWord : Obligations.FieldsOfAResponseWord :=
  ⟨toNat_rsp, fun st d => ⟨rspStatus_rspWord st d, rspData_rspWord st d⟩, rfl, rfl, rfl, rfl⟩

/-- Settles O32: each reading by its own lemma. -/
theorem readingsOfAPattern : Obligations.ReadingsOfAPattern :=
  ⟨s32_eq_ite, toNat_u32, toNat_zext64, toInt_sext64⟩

/-- Settles O57: in either order the four bytes are put together in the order of their places. -/
theorem persistedBytesReadBack : Obligations.PersistedBytesReadBack := by
  intro order v
  cases order with
  | little => exact congrArg some (append_bytes v)
  | big => exact congrArg some (append_bytes v)

end Machine

end Sys2Proof
end

/-! ## The text of a disassembled command (30_encoding.md section 5) -/
section

namespace Sys2Proof.Machine

/-! ### Numbers -/

/-- `c` is a decimal digit. -/
def IsDigit (c : Char) : Prop := ∃ d < 10, c = digitChar d

/-- No decimal digit is a minus sign, an `x`, or a character that ends a word. -/
theorem IsDigit.ne {c : Char} (h : IsDigit c) :
    c ≠ '-' ∧ c ≠ 'x' ∧ c ≠ ';' ∧ c ≠ ' ' ∧ c ≠ '\t' ∧ c ≠ ',' := by
  obtain ⟨d, hd, rfl⟩ := h
  revert d
  decide

theorem digitValue_digitChar {d : Nat} (h : d < 10) : digitValue 10 (digitChar d) = some d := by
  revert d
  decide

theorem isDigit_decimalOnto (fuel n : Nat) {acc : List Char} (hacc : ∀ c ∈ acc, IsDigit c) :
    ∀ c ∈ decimalOnto fuel n acc, IsDigit c := by
  induction fuel generalizing n acc with
  | zero => exact hacc
  | succ fuel ih =>
    rw [decimalOnto]
    split_ifs with h
    · exact List.forall_mem_cons.mpr ⟨⟨n, h, rfl⟩, hacc⟩
    · exact ih _ (List.forall_mem_cons.mpr ⟨⟨n % 10, Nat.mod_lt n (by norm_num), rfl⟩, hacc⟩)

/-- The digits printed before `acc` are read back as the number, and reading goes on with `acc`. -/
theorem digitsFrom_decimalOnto {fuel n : Nat} (h : n < fuel) (acc : List Char) :
    digitsFrom 10 0 (decimalOnto fuel n acc) = digitsFrom 10 n acc := by
  induction fuel generalizing n acc with
  | zero => cases h
  | succ fuel ih =>
    rw [decimalOnto]
    split_ifs with h10
    · simp only [digitsFrom, digitValue_digitChar h10, Nat.zero_mul, Nat.zero_add]
    · rw [ih (by omega), digitsFrom, digitValue_digitChar (Nat.mod_lt n (by norm_num))]
      simp only [Nat.div_add_mod']

theorem decimalOnto_ne_nil (fuel n : Nat) {acc : List Char} (hacc : acc ≠ []) : decimalOnto fuel n acc ≠ [] := by
  induction fuel generalizing n acc with
  | zero => exact hacc
  | succ fuel ih =>
    rw [decimalOnto]
    split_ifs
    · exact List.cons_ne_nil _ _
    · exact ih _ (List.cons_ne_nil _ _)

theorem showNat_ne_nil (n : Nat) : showNat n ≠ [] := by
  rw [showNat, decimalOnto]
  split_ifs
  · exact List.cons_ne_nil _ _
  · exact decimalOnto_ne_nil _ _ (List.cons_ne_nil _ _)

theorem isDigit_showNat (n : Nat) : ∀ c ∈ showNat n, IsDigit c :=
  isDigit_decimalOnto _ _ (List.forall_mem_nil _)

theorem digitsFrom_showNat (n : Nat) : digitsFrom 10 0 (showNat n) = some n :=
  digitsFrom_decimalOnto n.lt_succ_self []

theorem readNat_showNat (n : Nat) : readNat 10 (showNat n) = some n := by
  obtain ⟨c, cs, h⟩ := List.exists_cons_of_ne_nil (showNat_ne_nil n)
  rw [h, readNat, ← h, digitsFrom_showNat]

theorem readInt_of_digits {cs : List Char} (h : ∀ c ∈ cs, IsDigit c) :
    readInt cs = (readNat 10 cs).map Int.ofNat := by
  unfold readInt
  split
  · exact absurd rfl (h '-' List.mem_cons_self).ne.1
  · exact absurd rfl (h 'x' (List.mem_cons_of_mem _ List.mem_cons_self)).ne.2.1
  · rfl

theorem readInt_showInt (n : Int) : readInt (showInt n) = some n := by
  unfold showInt
  split_ifs with h
  · rw [readInt, readNat_showNat]
    exact congrArg some (show -(n.natAbs : Int) = n by omega)
  · rw [readInt_of_digits (isDigit_showNat _), readNat_showNat, Option.map_some]
    exact congrArg some (Int.natAbs_of_nonneg (not_lt.mp h))

/-! ### Words of a line -/

/-- `c` belongs to a word: it is no blank, no comma and no start of a comment. -/
def IsWordChar (c : Char) : Prop := c ≠ ';' ∧ c ≠ ' ' ∧ c ≠ '\t' ∧ c ≠ ','

/-- `w` is one token of a line. -/
def IsWord (w : List Char) : Prop := w ≠ [] ∧ ∀ c ∈ w, IsWordChar c

theorem tokens_append_word {w : List Char} (h : ∀ c ∈ w, IsWordChar c) (rev rest : List Char) :
    tokens rev (w ++ rest) = tokens (w.reverse ++ rev) rest := by
  induction w generalizing rev with
  | nil => rfl
  | cons c w ih =>
    obtain ⟨⟨hsemi, hspace, htab, hcomma⟩, hw⟩ := List.forall_mem_cons.mp h
    rw [List.cons_append, tokens, if_neg hsemi, if_neg (not_or.mpr ⟨hspace, htab⟩), if_neg hcomma, ih hw]
    simp

theorem endToken_word {w : List Char} (h : IsWord w) (rest : List (List Char)) :
    endToken (w.reverse ++ []) rest = w :: rest := by
  simp [endToken, h.1]

theorem tokens_word {w : List Char} (h : IsWord w) : tokens [] w = [w] := by
  have hw := tokens_append_word h.2 [] []
  rwa [List.append_nil, tokens, endToken_word h] at hw

theorem tokens_word_space {w : List Char} (h : IsWord w) (rest : List Char) :
    tokens [] (w ++ ' ' :: rest) = w :: tokens [] rest := by
  rw [tokens_append_word h.2, tokens, if_neg (by decide), if_pos (.inl rfl), endToken_word h]

theorem tokens_word_comma_space {w : List Char} (h : IsWord w) (rest : List Char) :
    tokens [] (w ++ ',' :: ' ' :: rest) = w :: [','] :: tokens [] rest := by
  rw [tokens_append_word h.2, tokens, if_neg (by decide), if_neg (by decide), if_pos rfl, endToken_word h]
  rfl

theorem isWord_showInt (n : Int) : IsWord (showInt n) := by
  have hdigit : ∀ c ∈ showNat n.natAbs, IsWordChar c := fun c hc => by
    obtain ⟨-, -, hsemi, hspace, htab, hcomma⟩ := (isDigit_showNat _ c hc).ne
    exact ⟨hsemi, hspace, htab, hcomma⟩
  unfold showInt
  split_ifs
  · exact ⟨List.cons_ne_nil _ _, List.forall_mem_cons.mpr ⟨by unfold IsWordChar; decide, hdigit⟩⟩
  · exact ⟨showNat_ne_nil _, hdigit⟩

theorem isWord_kwInit : IsWord kwInit := by
  simp [IsWord, IsWordChar, kwInit]

theorem isWord_kwRange : IsWord kwRange := by
  simp [IsWord, IsWordChar, kwRange]

theorem isWord_kwRestore : IsWord kwRestore := by
  simp [IsWord, IsWordChar, kwRestore]

/-! ### Lines -/

/-- Every line the assembler knows, printed, reads back as itself (R71, R72). -/
theorem readLine_showAsm (a : Asm) : readLine (showAsm a) = some (some a) := by
  cases a with
  | init n =>
    cases n with
    | none => rfl
    | some n =>
      have htokens : tokens [] (showAsm (.init (some n))) = [kwInit, showInt n] := by
        rw [showAsm, tokens_word_space isWord_kwInit, tokens_word (isWord_showInt n)]
      simp [readLine, htokens, readCommand, readInt_showInt]
  | advance => rfl
  | range m n =>
    have htokens : tokens [] (showAsm (.range m n)) = [kwRange, showInt m, [','], showInt n] := by
      rw [showAsm, List.append_assoc, List.cons_append, tokens_word_space isWord_kwRange,
        tokens_word_comma_space (isWord_showInt m), tokens_word (isWord_showInt n)]
    simp [readLine, htokens, readCommand, readInt_showInt]
  | float => rfl
  | save => rfl
  | restore n =>
    have htokens : tokens [] (showAsm (.restore n)) = [kwRestore, showInt n] := by
      rw [showAsm, tokens_word_space isWord_kwRestore, tokens_word (isWord_showInt n)]
    have hk : kwRestore ≠ kwInit := by decide
    simp [readLine, htokens, readCommand, readInt_showInt, hk]

/-- Assembling the line of a well-formed command gives the command's own word. -/
theorem assemble_lineOf {i : Instr} (h : i.wf = true) : assemble (lineOf i) = some (encode i) := by
  cases i with
  | init seed => rw [lineOf, assemble, u32_natCast_toNat]
  | advance => rfl
  | range min max =>
    obtain ⟨hmin, hmax⟩ := Bool.and_eq_true_iff.mp h
    exact assemble_range_of_fits hmin hmax
  | float => rfl
  | save => rfl
  | restore value =>
    have hlt := value.isLt
    rw [lineOf, assemble_restore_of_fits (by omega), u32_natCast_toNat]

/-! ### The obligation -/

/-- Settles O39: the line of a decoded command reads back as itself, and what decodes is well formed, so that
it assembles to the command's own word. -/
theorem disassemblyReassembles : Obligations.DisassemblyReassembles := by
  refine fun c => ⟨fun i h => ?_, fun op h => by rw [disassemble, h]⟩
  have hwf := (wf_and_opcode_of_decode h).1
  exact ⟨lineOf i, by rw [disassemble, h], readLine_showAsm _, assemble_lineOf hwf, decode_encode hwf⟩

end Sys2Proof.Machine
end

/-! ## The transform: its linear steps and the states it reaches a value from (41_advance.md section 3) -/
section

namespace Sys2Proof.Machine

/-! ### Shifts and exclusive or -/

theorem shl_xor (x y : Word) (n : Nat) : shl (x ^^^ y) n = shl x n ^^^ shl y n :=
  BitVec.shiftLeft_xor_distrib x y n

theorem shl_shl (x : Word) (m n : Nat) : shl (shl x m) n = shl x (m + n) :=
  (BitVec.shiftLeft_add x m n).symm

theorem shl_of_width_le (x : Word) {n : Nat} (h : 32 ≤ n) : shl x n = 0#32 :=
  BitVec.shiftLeft_eq_zero h

theorem sar_xor (x y : Word) (n : Nat) : sar (x ^^^ y) n = sar x n ^^^ sar y n :=
  BitVec.sshiftRight_xor_distrib x y n

/-- The arithmetic shift by 17 is the logical one with the 17 upper bits filled by bit 31 (R102). -/
theorem sar_17_eq (x : Word) : sar x 17 = shr x 17 ^^^ if x.getLsbD 31 then 0xFFFF8000#32 else 0#32 := by
  cases h : x.getLsbD 31 with
  | false =>
    rw [← BitVec.msb_eq_getLsbD_last x] at h
    exact (BitVec.sshiftRight_eq_of_msb_false h).trans BitVec.xor_zero.symm
  | true =>
    rw [← BitVec.msb_eq_getLsbD_last x] at h
    rw [sar, BitVec.sshiftRight_eq_of_msb_true h, ← BitVec.xor_allOnes, ← BitVec.xor_allOnes,
      BitVec.ushiftRight_xor_distrib, BitVec.xor_assoc]
    rfl

/-- The terms of a telescoping sum. -/
theorem xor_xor_cancel_mid (x y z : Word) : x ^^^ y ^^^ (y ^^^ z) = x ^^^ z := by
  rw [BitVec.xor_assoc, ← BitVec.xor_assoc y y z, BitVec.xor_self, BitVec.zero_xor]

theorem sar_toInt (x : Word) (n : Nat) : (sar x n).toInt = x.toInt / 2 ^ n := by
  rw [sar, BitVec.toInt_sshiftRight, Int.shiftRight_eq_div_pow]
  norm_cast

/-! ### The outer steps -/

theorem S1_xor (x y : Word) : S1 (x ^^^ y) = S1 x ^^^ S1 y := by
  simp only [S1, shl_xor]
  ac_rfl

theorem S3_xor (x y : Word) : S3 (x ^^^ y) = S3 x ^^^ S3 y := by
  simp only [S3, shl_xor]
  ac_rfl

theorem S1_shl (x : Word) (n : Nat) : S1 (shl x n) = shl (S1 x) n := by
  simp only [S1, shl_xor, shl_shl, Nat.add_comm]

theorem S3_shl (x : Word) (n : Nat) : S3 (shl x n) = shl (S3 x) n := by
  simp only [S3, shl_xor, shl_shl, Nat.add_comm]

theorem S1inv_S1 (x : Word) : S1inv (S1 x) = x := by
  simp only [S1inv, S1, shl_xor, shl_shl, xor_xor_cancel_mid, Nat.reduceAdd]
  rw [shl_of_width_le x (by norm_num), BitVec.xor_zero]

theorem S3inv_S3 (x : Word) : S3inv (S3 x) = x := by
  simp only [S3inv, S3, shl_xor, shl_shl, xor_xor_cancel_mid, Nat.reduceAdd]
  rw [shl_of_width_le x (by norm_num), BitVec.xor_zero]

/-- Both are sums of shifts, so they commute. -/
theorem S1_S1inv (y : Word) : S1 (S1inv y) = y := by
  have hcomm : S1 (S1inv y) = S1inv (S1 y) := by simp only [S1inv, S1_xor, S1_shl]
  rw [hcomm, S1inv_S1]

theorem S3_S3inv (z : Word) : S3 (S3inv z) = z := by
  have hcomm : S3 (S3inv z) = S3inv (S3 z) := by simp only [S3inv, S3_xor, S3_shl]
  rw [hcomm, S3inv_S3]

theorem S1_eq_iff {x y : Word} : S1 x = y ↔ x = S1inv y :=
  ⟨fun h => by rw [← h, S1inv_S1], fun h => by rw [h, S1_S1inv]⟩

theorem S3_eq_iff {y z : Word} : S3 y = z ↔ y = S3inv z :=
  ⟨fun h => by rw [← h, S3inv_S3], fun h => by rw [h, S3_S3inv]⟩

/-! ### The middle step -/

theorem S2_xor (x y : Word) : S2 (x ^^^ y) = S2 x ^^^ S2 y := by
  simp only [S2, sar_xor]
  ac_rfl

theorem S2_getLsbD_31 (x : Word) : (S2 x).getLsbD 31 = false := by
  rw [S2_getLsbD x (by norm_num), if_neg (by norm_num), Bool.xor_self]

/-- Where S2 is 0 every bit equals bit 31. -/
theorem S2_eq_zero_iff {x : Word} : S2 x = 0#32 ↔ x = 0#32 ∨ x = BitVec.allOnes 32 := by
  refine ⟨fun h => ?_, by rintro (rfl | rfl) <;> rfl⟩
  have hbit : ∀ i < 32, (S2 x).getLsbD i = false := fun i _ => by rw [h]; exact BitVec.getLsbD_zero
  have hhigh : ∀ i < 32, 15 ≤ i → x.getLsbD i = x.getLsbD 31 := fun i hi hi15 => by
    simpa [S2_getLsbD x hi, show ¬ i < 15 by omega] using hbit i hi
  have hlow : ∀ i < 15, x.getLsbD i = x.getLsbD 31 := fun i hi => by
    have h17 : x.getLsbD i = x.getLsbD (17 + i) := by
      simpa [S2_getLsbD x (show i < 32 by omega), hi] using hbit i (by omega)
    rw [h17, hhigh (17 + i) (by omega) (by omega)]
  have hall : ∀ i < 32, x.getLsbD i = x.getLsbD 31 := fun i hi =>
    (Nat.lt_or_ge i 15).elim (hlow i) (hhigh i hi)
  cases h31 : x.getLsbD 31 with
  | false => exact .inl (BitVec.eq_of_getLsbD_eq fun i hi => by rw [hall i hi, h31, BitVec.getLsbD_zero])
  | true => exact .inr (BitVec.eq_of_getLsbD_eq fun i hi => by
      rw [hall i hi, h31, BitVec.getLsbD_allOnes, decide_eq_true hi])

/-- S2 takes a pattern and its complement to one value, and no other two. -/
theorem S2_eq_S2_iff {x y : Word} : S2 x = S2 y ↔ x = y ∨ x = ~~~y := by
  have hcompl : x ^^^ y = BitVec.allOnes 32 ↔ x = ~~~y := by
    rw [← BitVec.xor_allOnes, BitVec.xor_comm y, ← BitVec.xor_left_inj y (x := x), BitVec.xor_assoc,
      BitVec.xor_self, BitVec.xor_zero]
  rw [← BitVec.xor_eq_zero_iff, ← S2_xor, S2_eq_zero_iff, BitVec.xor_eq_zero_iff, hcompl]

/-- Below a clear bit 31, one preimage under S2 is the same step with the logical shift. -/
theorem S2_xor_shr {y : Word} (h : y.getLsbD 31 = false) : S2 (y ^^^ shr y 17) = y := by
  have hy : sar y 17 = shr y 17 := by rw [sar_17_eq, h]; exact BitVec.xor_zero
  have hshr : sar (shr y 17) 17 = 0#32 := by
    have h31 : (shr y 17).getLsbD 31 = false := by simp [shr]
    rw [sar_17_eq, h31, shr, shr, ← BitVec.shiftRight_add, BitVec.ushiftRight_eq_zero (by norm_num)]
    rfl
  rw [S2, sar_xor, hy, hshr, xor_xor_cancel_mid, BitVec.xor_zero]

/-! ### The whole transform -/

theorem word_ne_not (u : Word) : u ≠ ~~~u := by
  intro h
  have h0 := congrArg (BitVec.getLsbD · 0) h
  simp at h0

/-- One of the two states from which T reaches `z`, where there are any. -/
def preimage (z : Word) : Word := S1inv (S3inv z ^^^ shr (S3inv z) 17)

/-- The other one. -/
def preimage' (z : Word) : Word := S1inv (~~~(S3inv z ^^^ shr (S3inv z) 17))

theorem T_eq_iff_S2 {x z : Word} : T x = z ↔ S2 (S1 x) = S3inv z := S3_eq_iff

theorem T_ne_of_bit31 {z : Word} (h : (S3inv z).getLsbD 31 = true) (x : Word) : T x ≠ z := by
  intro hT
  have h31 := S2_getLsbD_31 (S1 x)
  rw [T_eq_iff_S2.mp hT, h] at h31
  cases h31

theorem T_eq_iff {z : Word} (h : (S3inv z).getLsbD 31 = false) (x : Word) :
    T x = z ↔ x = preimage z ∨ x = preimage' z := by
  rw [T_eq_iff_S2, preimage, preimage', ← S1_eq_iff, ← S1_eq_iff, ← S2_eq_S2_iff, S2_xor_shr h]

/-- The two greater values are reached from no state (R110). -/
theorem T_le_largest (x : Word) : (T x).toNat ≤ 0xFFFFFFFD := by
  have hE : T x ≠ 0xFFFFFFFE#32 := T_ne_of_bit31 (by decide) x
  have hF : T x ≠ 0xFFFFFFFF#32 := T_ne_of_bit31 (by decide) x
  rw [Ne, BitVec.toNat_eq] at hE hF
  have hlt := (T x).isLt
  simp only [BitVec.toNat_ofNat] at hE hF
  omega

theorem T_eq_largest_iff (x : Word) : T x = 0xFFFFFFFD#32 ↔ x = 0x4707E94A#32 ∨ x = 0xBB07F6B5#32 := by
  have h : preimage 0xFFFFFFFD#32 = 0xBB07F6B5#32 := by decide
  have h' : preimage' 0xFFFFFFFD#32 = 0x4707E94A#32 := by decide
  rw [T_eq_iff (by decide), h, h', or_comm]

theorem T_eq_zero_iff (x : Word) : T x = 0#32 ↔ x = 0#32 ∨ x = 0xFC001FFF#32 := by
  have h : preimage 0#32 = 0#32 := by decide
  have h' : preimage' 0#32 = 0xFC001FFF#32 := by decide
  rw [T_eq_iff (by decide), h, h']

/-! ### The obligations -/

/-- Settles O10: the shift divides the signed value by 2^n and rounds down. -/
theorem arithmeticShiftIsFloorOfSignedQuotient : Obligations.ArithmeticShiftIsFloorOfSignedQuotient := by
  intro x n _
  rw [sar_toInt]
  exact_mod_cast (Rat.floor_intCast_div_natCast x.toInt (2 ^ n)).symm

/-- Settles O11: both outer steps are sums of shifts that the inverses telescope away, and bit 31 of S2 is
bit 31 of its argument twice. -/
theorem outerStepsAreBijections : Obligations.OuterStepsAreBijections :=
  fun x => ⟨S1inv_S1 x, S1_S1inv x, S3inv_S3 x, S3_S3inv x, S2_getLsbD_31 x⟩

/-- Settles O12: the outer steps are bijections, and S2 takes exactly a pattern and its complement to one
value. -/
theorem transformIsTwoToOne : Obligations.TransformIsTwoToOne := by
  refine fun z => ⟨fun h => ⟨preimage z, preimage' z, ?_, ?_, ?_, fun w => (T_eq_iff h w).mp⟩, T_ne_of_bit31⟩
  · intro heq
    exact word_ne_not _ (by simpa only [preimage, preimage', S1_S1inv] using congrArg S1 heq)
  · exact (T_eq_iff h _).mpr (.inl rfl)
  · exact (T_eq_iff h _).mpr (.inr rfl)

/-- Settles O13: the fill of the arithmetic shift passes through S3, which is linear, as 0x000F8000. -/
theorem logicalShiftWouldDiffer : Obligations.LogicalShiftWouldDiffer := by
  intro x
  rw [T, S2, sar_17_eq, ← BitVec.xor_assoc, S3_xor, ← TL]
  cases (S1 x).getLsbD 31 with
  | false => exact BitVec.xor_zero
  | true => rfl

/-- Settles O14: they are the two preimages of 0. -/
theorem onlyTwoStatesAdvanceToZero : Obligations.OnlyTwoStatesAdvanceToZero := T_eq_zero_iff

/-- Settles O15: the two greater values have no preimage, and these are the two preimages of this one. -/
theorem largestTransformOutput : Obligations.LargestTransformOutput :=
  fun x => ⟨T_le_largest x, T_eq_largest_iff x⟩

end Sys2Proof.Machine
end

/-! ## RANGE: the result and its distribution (42_ranged_sampler.md) -/
section

namespace Sys2Proof.Machine

/-- A sampled value between two signed 32-bit operands is one itself (R122). -/
theorem RS_fits (v : Word) {min max : Int} (hmin : fitsS32 min = true) (hmax : fitsS32 max = true)
    (h : min < max) : fitsS32 (RS v min max) = true := by
  have hlo := (fitsS32_iff.mp hmin).1
  have hhi := (fitsS32_iff.mp hmax).2
  obtain ⟨hRSlo, hRShi⟩ := RS_bounds v h
  exact fitsS32_iff.mpr ⟨by omega, by omega⟩

/-- So no width change on its way into the response data loses anything (R122). -/
theorem toInt_rangeData (v : Word) {min max : Int} (hmin : fitsS32 min = true) (hmax : fitsS32 max = true)
    (h : min < max) : (sext64 (u32 (RS v min max))).toInt = RS v min max := by
  rw [toInt_sext64, s32_u32 (RS_fits v hmin hmax h)]

/-- The values that give the result `min + k` are those congruent to `k` modulo the width (R120). -/
theorem RS_eq_iff {v k : Nat} {min max : Int} (h : min < max) (hv : v < 2 ^ 32) (hk : (k : Int) < max - min) :
    RS (BitVec.ofNat 32 v) min max = min + k ↔ v ≡ k [MOD (max - min).toNat] := by
  obtain ⟨W, hW⟩ : ∃ W : Nat, max - min = W := ⟨_, (Int.toNat_of_nonneg (by omega)).symm⟩
  rw [hW] at hk
  rw [RS, BitVec.toNat_ofNat, Nat.mod_eq_of_lt hv, hW, Int.toNat_natCast, Nat.ModEq,
    Nat.mod_eq_of_lt (show k < W by omega)]
  omega

/-! ### The obligations -/

/-- Settles O16: the sampled value lies between the operands, so it fits 32 bits and is read back from the
data as it is. -/
theorem rangeResultLiesInItsRange : Obligations.RangeResultLiesInItsRange := by
  intro min max s hwf hlt hlive
  obtain ⟨hmin, hmax⟩ := Bool.and_eq_true_iff.mp hwf
  have hwidth : 1 ≤ max - min ∧ max - min ≤ 2 ^ 32 - 1 := by
    have hlo := (fitsS32_iff.mp hmin).1
    have hhi := (fitsS32_iff.mp hmax).2
    omega
  refine ⟨hwidth, _, _, (execRange_valid hlt s).trans (advanceThen_live _ hlive), rfl, rspStatus_rspWord _ _, ?_⟩
  rw [rspData_rspWord, toInt_rangeData _ hmin hmax hlt]
  exact ⟨rfl, RS_bounds _ hlt⟩

/-- Settles O17: it counts a residue class below 2^32. -/
theorem rangedSamplerBias : Obligations.RangedSamplerBias := by
  intro min max k hlt _ hk
  have hW : 0 < (max - min).toNat := by omega
  have hkW : k % (max - min).toNat = k := Nat.mod_eq_of_lt (by omega)
  calc Nat.count (fun v => RS (BitVec.ofNat 32 v) min max = min + k) (2 ^ 32)
      = Nat.count (· ≡ k [MOD (max - min).toNat]) (2 ^ 32) := by
        rw [Nat.count_eq_card_filter_range, Nat.count_eq_card_filter_range]
        exact congrArg _ (Finset.filter_congr fun v hv => RS_eq_iff hlt (Finset.mem_range.mp hv) hk)
    _ = _ := by rw [Nat.count_modEq_card _ hW, hkW]

end Sys2Proof.Machine
end

/-! ## All commands together (10_state.md, 60_exceptions.md, 70_reset_and_hazards.md) -/
section

namespace Sys2Proof.Machine

/-! ### The transaction of each opcode -/

/-- The words of INIT and RESTORE: those that write a value of the host's to STATE. -/
abbrev Loads (c : CmdWord) : Prop := opOf c = 0x01#8 ∨ opOf c = 0x06#8

/-- The words of ADVANCE, FLOAT and a valid RANGE: those that advance a Live generator (R104). -/
abbrev Advances (c : CmdWord) : Prop :=
  opOf c = 0x02#8 ∨ opOf c = 0x04#8 ∨ opOf c = 0x03#8 ∧ s32 (aOf c) < s32 (bOf c)

/-- The words that read no STATE: the reserved ones, INIT, RESTORE and an empty RANGE (R23). -/
abbrev ReadsNoState (c : CmdWord) : Prop :=
  opOf c = 0x00#8 ∨ 0x07#8 ≤ opOf c ∨ opOf c = 0x01#8 ∨ opOf c = 0x06#8 ∨
    opOf c = 0x03#8 ∧ s32 (bOf c) ≤ s32 (aOf c)

/-- The transaction of the advance procedure: InvalidState from STATE 0, else one step of T, answered with
`data` of the new STATE (R104). -/
def advanceTransaction (data : Word → Data) (st : Word) : Word × RspWord :=
  if st = 0 then (st, rspWord .invalidState 0) else (T st, rspWord .ok (data (T st)))

theorem advanceTransaction_STATE (data : Word → Data) (st : Word) :
    (advanceTransaction data st).1 = if st ≠ 0 then T st else st := by
  rw [advanceTransaction, ite_not]
  split_ifs <;> rfl

theorem advanceThen_eq_transaction (data : Word → Data) (s : State) :
    advanceThen data s = .next { s with
      STATE := (advanceTransaction data s.STATE).1, rsp := some (advanceTransaction data s.STATE).2 } := by
  obtain ⟨hzero, h⟩ | ⟨hlive, h⟩ := advanceThen_cases data s
  · rw [h, advanceTransaction, if_pos hzero]
    rfl
  · rw [h, advanceTransaction, if_neg hlive]
    rfl

theorem transact_of_op_02 {c : CmdWord} (h : opOf c = 0x02#8) (st : Word) :
    transact st c = advanceTransaction zext64 st := by
  unfold opOf at h
  simp only [transact, h]
  rfl

/-- The data of RANGE, read off the raw word, is the model's: nothing is lost in 32 bits (R121, R122). -/
theorem transact_of_valid_range {c : CmdWord} (h : opOf c = 0x03#8) (hlt : s32 (aOf c) < s32 (bOf c)) (st : Word) :
    transact st c = advanceTransaction (fun v => sext64 (u32 (RS v (s32 (aOf c)) (s32 (bOf c))))) st := by
  have hdata : ∀ v, sext64 (u32 (RS v (s32 (aOf c)) (s32 (bOf c)))) =
      BitVec.ofInt 64 (RS v (s32 (aOf c)) (s32 (bOf c))) := fun v =>
    BitVec.ofInt_toInt.symm.trans (congrArg _ (toInt_rangeData v (fitsS32_s32 _) (fitsS32_s32 _) hlt))
  simp only [hdata]
  unfold opOf s32 aOf bOf at *
  simp only [transact, h, if_neg (Int.not_le.mpr hlt)]
  rfl

theorem transact_of_empty_range {c : CmdWord} (h : opOf c = 0x03#8) (hle : s32 (bOf c) ≤ s32 (aOf c)) (st : Word) :
    transact st c = (st, rspWord .invalidRange 0) := by
  unfold opOf s32 aOf bOf at *
  simp only [transact, h, if_pos hle]
  rfl

theorem transact_of_op_04 {c : CmdWord} (h : opOf c = 0x04#8) (st : Word) :
    transact st c = advanceTransaction FSbits st := by
  unfold opOf at h
  simp only [transact, h]
  rfl

theorem transact_of_op_05 {c : CmdWord} (h : opOf c = 0x05#8) (st : Word) :
    transact st c = (st, rspWord .ok (zext64 st)) := by
  unfold opOf at h
  simp only [transact, h]
  rfl

theorem transact_of_reserved {c : CmdWord} (h : opOf c = 0x00#8 ∨ 0x07#8 ≤ opOf c) (st : Word) :
    transact st c = (st, rspWord .illegalOp 0) := by
  obtain ⟨h1, h2, h3, h4, h5, h6⟩ := (reserved_op_iff _).mp h
  unfold opOf at *
  simp only [transact, h1, h2, h3, h4, h5, h6, or_self, if_false]
  rfl

/-- Every command word loads a value, advances, answers STATE, or raises an error that STATE has no part in. -/
theorem transact_cases (c : CmdWord) :
    (Loads c ∧ ¬ Advances c ∧ ∀ st, transact st c = (aOf c, 0)) ∨
    (¬ Loads c ∧ Advances c ∧ ¬ ReadsNoState c ∧ ∃ data, ∀ st, transact st c = advanceTransaction data st) ∨
    (¬ Loads c ∧ ¬ Advances c ∧ ¬ ReadsNoState c ∧ ∀ st, transact st c = (st, rspWord .ok (zext64 st))) ∨
    (¬ Loads c ∧ ¬ Advances c ∧ ∃ e, ∀ st, transact st c = (st, rspWord (errorStatus e) 0)) := by
  obtain ⟨h, -⟩ | ⟨h, -⟩ | ⟨h, -⟩ | ⟨h, -⟩ | ⟨h, -⟩ | ⟨h, -⟩ | ⟨h, -⟩ := decode_cases c
  · exact .inl ⟨.inl h, by simp [h], transact_of_load (.inl h)⟩
  · exact .inr (.inl ⟨by simp [h], .inl h, by simp [h], _, transact_of_op_02 h⟩)
  · obtain hlt | hle := lt_or_ge (s32 (aOf c)) (s32 (bOf c))
    · exact .inr (.inl ⟨by simp [h], .inr (.inr ⟨h, hlt⟩), by simp [h, hlt], _, transact_of_valid_range h hlt⟩)
    · exact .inr (.inr (.inr ⟨by simp [h], by simp [h, hle], .invalidRange, transact_of_empty_range h hle⟩))
  · exact .inr (.inl ⟨by simp [h], .inr (.inl h), by simp [h], _, transact_of_op_04 h⟩)
  · exact .inr (.inr (.inl ⟨by simp [h], by simp [h], by simp [h], transact_of_op_05 h⟩))
  · exact .inl ⟨.inr h, by simp [h], transact_of_load (.inr h)⟩
  · exact .inr (.inr (.inr ⟨by simp [h], by simp [h], .illegalOp, transact_of_reserved ((reserved_op_iff _).mpr h)⟩))

/-- The write column of R23. -/
theorem transact_STATE (st : Word) (c : CmdWord) :
    (transact st c).1 = if Loads c then aOf c else if Advances c ∧ st ≠ 0 then T st else st := by
  obtain ⟨hl, -, h⟩ | ⟨hl, ha, -, data, h⟩ | ⟨hl, ha, -, h⟩ | ⟨hl, ha, e, h⟩ := transact_cases c
  · rw [h, if_pos hl]
  · simp only [h, advanceTransaction_STATE, if_neg hl, ha, true_and]
  · simp only [h, if_neg hl, ha, false_and, if_false]
  · simp only [h, if_neg hl, ha, false_and, if_false]

/-- The read column of R23. -/
theorem transact_rsp_of_readsNoState {c : CmdWord} (hc : ReadsNoState c) :
    ∃ r, ∀ st, (transact st c).2 = r := by
  obtain ⟨-, -, h⟩ | ⟨-, -, hn, -⟩ | ⟨-, -, hn, -⟩ | ⟨-, -, e, h⟩ := transact_cases c
  · exact ⟨0, fun st => congrArg Prod.snd (h st)⟩
  · exact absurd hc hn
  · exact absurd hc hn
  · exact ⟨rspWord (errorStatus e) 0, fun st => congrArg Prod.snd (h st)⟩

/-! ### Performing a command is its transaction -/

/-- Settles O52: the decoder's row of each opcode, and that row's transaction. -/
theorem performingIsTheTransaction : Obligations.PerformingIsTheTransaction := by
  intro c s
  obtain ⟨h, hc⟩ | ⟨h, hc⟩ | ⟨h, hc⟩ | ⟨h, hc⟩ | ⟨h, hc⟩ | ⟨h, hc⟩ | ⟨h, hc⟩ := decode_cases c
  · rw [performCommand_instr hc, transact_of_load (.inl h)]
    exact exec_init _ s
  · rw [performCommand_instr hc, transact_of_op_02 h]
    exact advanceThen_eq_transaction zext64 s
  · rw [performCommand_instr hc]
    obtain hlt | hle := lt_or_ge (s32 (aOf c)) (s32 (bOf c))
    · rw [transact_of_valid_range h hlt]
      exact (execRange_valid hlt s).trans (advanceThen_eq_transaction _ s)
    · rw [transact_of_empty_range h hle]
      exact execRange_empty hle s
  · rw [performCommand_instr hc, transact_of_op_04 h]
    exact advanceThen_eq_transaction FSbits s
  · rw [performCommand_instr hc, transact_of_op_05 h]
    exact exec_save s
  · rw [performCommand_instr hc, transact_of_load (.inr h)]
    exact exec_restore _ s
  · rw [performCommand_reserved hc, transact_of_reserved ((reserved_op_iff _).mpr h)]
    rfl

theorem State.isLive_iff (s : State) : s.isLive = true ↔ s.STATE ≠ 0#32 := bne_iff_ne

theorem State.isInvalid_iff (s : State) : s.isInvalid = true ↔ s.STATE = 0#32 := beq_iff_eq

/-! ### The obligations -/

/-- Settles O8: the two arms are the same update. -/
theorem initAndRestoreHaveOneEffect : Obligations.InitAndRestoreHaveOneEffect :=
  fun v s => (exec_init v s).trans (exec_restore v s).symm

/-- Settles O25, by the write column and the read column of the transactions. -/
theorem accessToStateByCommand : Obligations.AccessToStateByCommand := by
  refine ⟨fun c s => ⟨_, performingIsTheTransaction c s, transact_STATE s.STATE c⟩, fun c hc => ?_⟩
  obtain ⟨r, hr⟩ := transact_rsp_of_readsNoState hc
  exact ⟨r, fun s => ⟨_, performingIsTheTransaction c s, congrArg some (hr s.STATE)⟩⟩

/-- Settles O26: both are the transaction on the one STATE. -/
theorem onlyStateAndCommandDecideTheAnswer : Obligations.OnlyStateAndCommandDecideTheAnswer := by
  intro c s s' h
  refine ⟨_, _, performingIsTheTransaction c s, ?_⟩
  rw [h]
  exact performingIsTheTransaction c s'

/-- Settles O27: a command writes STATE and the response at most, whichever of the two answers it gives. -/
theorem commandsLeaveThePortAlone : Obligations.CommandsLeaveThePortAlone := by
  intro i s t hnext
  obtain ⟨st, d, h⟩ | ⟨v, d, h⟩ := exec_answers i s
  all_goals
    rw [h] at hnext
    cases hnext
    exact ⟨rfl, rfl, rfl, rfl⟩

/-- Settles O28, by the write column: a value loaded is 0 where the host's is, an advance from a nonzero STATE
reaches 0 from the one nonzero preimage, and no other command writes STATE. -/
theorem waysFromLiveToInvalid : Obligations.WaysFromLiveToInvalid := by
  intro c s t hlive hnext
  rw [State.isLive_iff] at hlive
  cases (performingIsTheTransaction c s).symm.trans hnext
  rw [State.isInvalid_iff]
  obtain ⟨hl, ha, h⟩ | ⟨hl, ha, -, data, h⟩ | ⟨hl, ha, -, h⟩ | ⟨hl, ha, e, h⟩ := transact_cases c
  · simp only [h, hl, ha, true_and, false_and, or_false]
  · simp only [h, hl, ha, true_and, false_and, false_or, (advanceTransaction_STATE _ _).trans (if_pos hlive)]
    rw [T_eq_zero_iff, or_iff_right hlive]
  · simp only [h, hl, ha, hlive, false_and, or_self]
  · simp only [h, hl, ha, hlive, false_and, or_self]

/-- Settles O55: SAVE keeps STATE and answers it, and RESTORE writes it back whatever came between. -/
theorem restoreOfASaveReplaysTheRun : Obligations.RestoreOfASaveReplaysTheRun := by
  intro st save restore between cs hsave hrestore hvalue
  have hst : aOf restore = st := by
    rw [hvalue, transact_of_op_05 hsave, rspData_rspWord, zext64]
    exact BitVec.setWidth_setWidth_of_le _ (by norm_num) |>.trans (BitVec.setWidth_eq st)
  have hrun : (runOf st (save :: between ++ [restore])).1 = st := by
    rw [runOf_append, runOf_cons, transact_of_load (.inr hrestore)]
    exact hst
  rw [hrun, transact_of_op_05 hsave]

end Sys2Proof.Machine
end

/-! ## The float sampler: nearness, order and bounds (43_float_sampler.md) -/
section

namespace Sys2Proof.Machine

/-! ### Rational numbers and the integers nearest to them -/

/-- An integer within one half of `q` is at least as near to `q` as any other integer. -/
theorem abs_sub_le_of_within_half {m : ℤ} {q : ℚ} (h : |(m : ℚ) - q| ≤ 1 / 2) (z : ℤ) :
    |(m : ℚ) - q| ≤ |(z : ℚ) - q| := by
  by_cases hz : z = m
  · rw [hz]
  · have hdist : (1 : ℚ) ≤ |(z : ℚ) - m| := by exact_mod_cast Int.one_le_abs (sub_ne_zero.mpr hz)
    have htri := abs_sub_le (z : ℚ) q m
    rw [abs_sub_comm q] at htri
    linarith

/-- Scaled by a power of two, the value of an encoding is an integer or below the scale of the significands. -/
theorem f64Value_scaled (b : Data) {K : ℕ} :
    (∃ z : ℤ, f64Value b * 2 ^ K = z) ∨ f64Value b * 2 ^ K < 2 ^ 52 := by
  obtain ⟨σ, s, x, hσ, hs, hval⟩ := f64Value_dyadic b
  generalize (1074 : ℕ) = N at hval
  rw [hval N rfl]
  have hN : (0 : ℚ) < 2 ^ N := by positivity
  obtain hle | hlt := le_or_gt N (x + K)
  · obtain ⟨y, hy⟩ := Nat.exists_eq_add_of_le hle
    refine .inl ⟨σ * s * 2 ^ y, ?_⟩
    rw [div_mul_eq_mul_div, div_eq_iff hN.ne', mul_assoc _ ((2 : ℚ) ^ x), ← pow_add, hy, pow_add]
    push_cast
    ring
  · refine .inr ?_
    obtain ⟨y, rfl⟩ := Nat.exists_eq_add_of_lt hlt
    have hs : (s : ℚ) < 2 ^ 53 := by exact_mod_cast hs
    have hσs : (σ : ℚ) * s ≤ s := by
      have hs0 : (0 : ℚ) ≤ s := s.cast_nonneg
      obtain rfl | rfl := hσ <;> push_cast <;> linarith
    have hy : (1 : ℚ) ≤ 2 ^ y := one_le_pow₀ (by norm_num)
    have hpow : (2 : ℚ) ^ (x + K + y + 1) = 2 ^ y * 2 * (2 ^ x * 2 ^ K) := by ring
    rw [div_mul_eq_mul_div, div_lt_iff₀ hN, hpow, mul_assoc _ ((2 : ℚ) ^ x), ← mul_assoc (2 ^ 52 : ℚ)]
    refine mul_lt_mul_of_pos_right ?_ (by positivity)
    linarith

/-! ### The error of the float sampler -/

theorem FSbits_zero : FSbits 0#32 = 0#64 := by decide

theorem FSbits_largest : FSbits 0xFFFFFFFF#32 = 0x3FF0000000000000#64 := by decide

theorem f64Value_zero : f64Value 0#64 = 0 := by
  unfold f64Value
  rw [if_pos (by decide)]
  simp

theorem f64Value_one : f64Value 0x3FF0000000000000#64 = 1 := by
  obtain ⟨-, -, h⟩ := f64Value_of_form (b := 0x3FF0000000000000#64) (k := 0) (m := 2 ^ 52) (by norm_num) le_rfl
    (by norm_num) (by decide)
  rw [h]
  norm_num

/-- For a nonzero argument the value of FS(v), counted in units of its own last place, is an integer within one
half of the exact quotient, which has 53 bits before the point there. -/
theorem FSbits_value {v : Word} (h : v ≠ 0#32) : f64Finite (FSbits v) ∧ (FSbits v).msb = false ∧
    ∃ k m : ℕ, f64Value (FSbits v) * 2 ^ (k + 52) = m ∧
      |(m : ℚ) - (v.toNat : ℚ) / 4294967295 * 2 ^ (k + 52)| ≤ 1 / 2 ∧
      2 ^ 52 ≤ (v.toNat : ℚ) / 4294967295 * 2 ^ (k + 52) := by
  obtain ⟨k, m, hk, hlo, -, hm1, hm2, hbits, hn1, hn2⟩ := FSbits_form h
  obtain ⟨hfin, hmsb, hval⟩ := f64Value_of_form hk hm1 hm2 hbits
  have hD : floatDivisor = 4294967295 := rfl
  rw [hD] at hlo hn1 hn2
  have hlo : (4294967295 : ℚ) ≤ v.toNat * 2 ^ k := by exact_mod_cast hlo
  have hn1 : 2 * ((m : ℚ) * 4294967295) ≤ 2 * (v.toNat * 2 ^ (k + 52)) + 4294967295 := by exact_mod_cast hn1
  have hn2 : 2 * ((v.toNat : ℚ) * 2 ^ (k + 52)) ≤ 2 * (m * 4294967295) + 4294967295 := by exact_mod_cast hn2
  refine ⟨hfin, hmsb, k, m, ?_, ?_, ?_⟩
  · rw [hval, div_mul_cancel₀ _ (by positivity)]
  · rw [abs_le]
    constructor <;> linarith
  · rw [pow_add]
    linarith

/-- The rounding error is at most 2^-53. -/
theorem FSbits_error (v : Word) : |f64Value (FSbits v) - (v.toNat : ℚ) / 4294967295| ≤ 1 / 2 ^ 53 := by
  by_cases h : v = 0#32
  · rw [h, FSbits_zero, f64Value_zero]
    norm_num
  · obtain ⟨-, -, k, m, hval, herr, -⟩ := FSbits_value h
    have hk : (1 : ℚ) ≤ 2 ^ k := one_le_pow₀ (by norm_num)
    rw [← hval, ← sub_mul, abs_mul, abs_of_pos (show (0 : ℚ) < 2 ^ (k + 52) by positivity), pow_add] at herr
    have hnn := abs_nonneg (f64Value (FSbits v) - (v.toNat : ℚ) / 4294967295)
    nlinarith

theorem f64Finite_FSbits (v : Word) : f64Finite (FSbits v) := by
  by_cases h : v = 0#32
  · rw [h, FSbits_zero]
    unfold f64Finite
    decide
  · exact (FSbits_value h).1

theorem FSbits_msb (v : Word) : (FSbits v).msb = false := by
  by_cases h : v = 0#32
  · rw [h, FSbits_zero]
    rfl
  · exact (FSbits_value h).2.1

/-- Two quotients of different arguments are further apart than two rounding errors. -/
theorem FSbits_strictMono {v w : Word} (h : v.toNat < w.toNat) : f64Value (FSbits v) < f64Value (FSbits w) := by
  have hv := (abs_le.mp (FSbits_error v)).2
  have hw := (abs_le.mp (FSbits_error w)).1
  have hlt : (v.toNat : ℚ) + 1 ≤ w.toNat := by exact_mod_cast h
  linarith

theorem FSbits_mono {v w : Word} (h : v.toNat ≤ w.toNat) : f64Value (FSbits v) ≤ f64Value (FSbits w) := by
  obtain hlt | heq := h.lt_or_eq
  · exact (FSbits_strictMono hlt).le
  · rw [BitVec.eq_of_toNat_eq heq]

theorem f64Value_FSbits_nonneg (v : Word) : 0 ≤ f64Value (FSbits v) := by
  rw [← f64Value_zero, ← FSbits_zero]
  exact FSbits_mono (Nat.zero_le _)

theorem f64Value_FSbits_largest : f64Value (FSbits 0xFFFFFFFF#32) = 1 := by
  rw [FSbits_largest, f64Value_one]

/-! ### The encodings -/

theorem FSbits_eq_zero_iff (v : Word) : FSbits v = 0 ↔ v = 0#32 := by
  refine ⟨fun h => ?_, fun h => h ▸ FSbits_zero⟩
  by_contra hv
  obtain ⟨k, m, -, -, -, hm, -, hbits, -⟩ := FSbits_form hv
  have hzero : (FSbits v).toNat = 0 := by rw [h]; rfl
  omega

/-- The encoding for every value T can give is at most that for the largest (R143). -/
theorem FSbits_toNat_le {v : Word} (h : v.toNat ≤ 0xFFFFFFFD) : (FSbits v).toNat ≤ 0x3FEFFFFFFFC00000 := by
  by_cases hv : v = 0#32
  · rw [hv, FSbits_zero]
    norm_num
  · obtain ⟨k, m, hk, hlo, -, -, hm, hbits, hn, -⟩ := FSbits_form hv
    rw [show floatDivisor = 4294967295 from rfl] at hlo hn
    rw [hbits]
    obtain rfl | rfl | hk2 : k = 0 ∨ k = 1 ∨ 2 ≤ k := by omega
    · omega
    · omega
    · clear hlo hn
      omega

/-! ### Ties -/

/-- A dyadic multiple of the quotient shows the divisor to divide the argument: the divisor is odd. -/
theorem dvd_of_quotient_dyadic {v N : ℕ} {z : ℤ} (h : 2 * ((v : ℚ) / 4294967295) = z / 2 ^ N) : 4294967295 ∣ v := by
  have hz : (v : ℤ) * 2 ^ (N + 1) = 4294967295 * z := by
    have hN : (2 : ℚ) ^ N ≠ 0 := by positivity
    field_simp at h
    have : (v : ℚ) * 2 ^ (N + 1) = 4294967295 * z := by rw [pow_succ]; linarith
    exact_mod_cast this
  have hodd : IsCoprime (4294967295 : ℤ) (2 ^ (N + 1)) :=
    IsCoprime.pow_right ⟨1, -2147483647, by norm_num⟩
  exact_mod_cast hodd.dvd_of_dvd_mul_right (Dvd.intro z hz.symm)

theorem FSbits_exact_of_dvd {v : Word} (h : 4294967295 ∣ v.toNat) :
    f64Value (FSbits v) = (v.toNat : ℚ) / 4294967295 := by
  have hlt := v.isLt
  obtain hv | hv : v.toNat = 0 ∨ v.toNat = 4294967295 := by omega
  · rw [hv, show v = 0#32 from BitVec.eq_of_toNat_eq hv, FSbits_zero, f64Value_zero]
    norm_num
  · rw [hv, show v = 0xFFFFFFFF#32 from BitVec.eq_of_toNat_eq hv, f64Value_FSbits_largest]
    norm_num

theorem f64Value_add_dyadic (a b : Data) : ∃ (z : ℤ) (N : ℕ), f64Value a + f64Value b = z / 2 ^ N := by
  obtain ⟨σ, s, x, -, -, ha⟩ := f64Value_dyadic a
  obtain ⟨τ, u, y, -, -, hb⟩ := f64Value_dyadic b
  generalize (1074 : ℕ) = N at ha hb
  refine ⟨σ * s * 2 ^ x + τ * u * 2 ^ y, N, ?_⟩
  rw [ha N rfl, hb N rfl, ← add_div]
  push_cast
  rfl

/-! ### The obligations -/

/-- Settles O18: scaled so that the quotient has 53 bits before the point, FS(v) is an integer within one half of
it, and any other value is an integer too or lies below the least 53-bit integer. -/
theorem floatSampleIsNearest : Obligations.FloatSampleIsNearest := by
  refine fun v => ⟨f64Finite_FSbits v, fun b _ => ?_⟩
  by_cases hv : v = 0#32
  · rw [hv, FSbits_zero, f64Value_zero]
    simp
  · obtain ⟨-, -, k, m, hval, herr, hlo⟩ := FSbits_value hv
    have hP : (0 : ℚ) < 2 ^ (k + 52) := by positivity
    have hscale : ∀ x y : ℚ, |x * 2 ^ (k + 52) - y * 2 ^ (k + 52)| = |x - y| * 2 ^ (k + 52) := fun x y => by
      rw [← sub_mul, abs_mul, abs_of_pos hP]
    refine le_of_mul_le_mul_right ?_ hP
    rw [← hscale, ← hscale, hval]
    have hnear := abs_sub_le_of_within_half (m := m) herr
    obtain ⟨z, hz⟩ | hsmall := f64Value_scaled b (K := k + 52)
    · rw [hz]
      exact hnear z
    · refine (hnear (2 ^ 52)).trans ?_
      push_cast
      rw [abs_of_nonpos (by linarith), abs_of_neg (by linarith)]
      linarith

/-- Settles O19: a tie would make the quotient dyadic, so that the odd divisor divides `v`; but then FS(v) is the
quotient itself, a value between the two neighbours. -/
theorem floatQuotientIsNeverATie : Obligations.FloatQuotientIsNeverATie := by
  intro v a b _ _ hab hnone htie
  obtain ⟨z, N, hsum⟩ := f64Value_add_dyadic a b
  have hexact := FSbits_exact_of_dvd (dvd_of_quotient_dyadic (htie.trans hsum))
  obtain hle | hle := hnone (FSbits v) (f64Finite_FSbits v) <;> linarith

/-- Settles O20: rounding moves two different quotients by less than half their distance. -/
theorem floatSampleIsStrictlyIncreasing : Obligations.FloatSampleIsStrictlyIncreasing :=
  fun _ _ => FSbits_strictMono

/-- Settles O21: the two ends, and everything between them by monotonicity. -/
theorem floatSampleBounds : Obligations.FloatSampleBounds := by
  refine ⟨FSbits_zero, FSbits_largest, fun v =>
    ⟨f64Finite_FSbits v, FSbits_msb v, f64Value_FSbits_nonneg v, ?_⟩⟩
  rw [← f64Value_FSbits_largest]
  exact FSbits_mono (Nat.le_of_lt_succ v.isLt)

/-- Settles O22: FS of a value of T, which is at most 0xFFFFFFFD, and 0 from one nonzero STATE only. -/
theorem floatCommandStaysBelowOne : Obligations.FloatCommandStaysBelowOne := by
  intro s hlive
  refine ⟨_, _, (exec_float s).trans (advanceThen_live FSbits hlive), rfl, rspStatus_rspWord _ _, ?_⟩
  have hT := T_le_largest s.STATE
  rw [rspData_rspWord, FSbits_eq_zero_iff, T_eq_zero_iff]
  refine ⟨f64Value_FSbits_nonneg _, ?_, FSbits_toNat_le hT, or_iff_right hlive⟩
  rw [← f64Value_FSbits_largest]
  exact FSbits_strictMono (Nat.lt_of_le_of_lt hT (by decide))

end Sys2Proof.Machine
end

/-! ## Reset and the handshake of the port, step by step (70_reset_and_hazards.md) -/
section

namespace Sys2Proof.Machine

/-! ### A step under each condition -/

section
variable {s : State} (hrst : s.pins.rst = false)
include hrst

theorem step_take {r : RspWord} (hr : s.rsp = some r) (ht : s.pins.rspReady = true)
    (hn : statusNamed r = true) :
    step s = .next { s with cmd := none, rsp := none, host := s.host.tail, taken := s.taken ++ [r] } :=
  (portStep_take (s := s.nextPins) hrst hr ht).trans (takeResponse_named hn s.nextPins)

theorem step_take_unnamed {r : RspWord} (hr : s.rsp = some r) (ht : s.pins.rspReady = true)
    (hn : ¬ statusNamed r = true) : step s = .fault .reservedStatus :=
  (portStep_take (s := s.nextPins) hrst hr ht).trans (if_neg hn)

theorem step_stall {r : RspWord} (hr : s.rsp = some r) (ht : s.pins.rspReady = false) :
    step s = .next s.nextPins :=
  portStep_stall hrst hr ht

theorem step_perform {c : CmdWord} (hr : s.rsp = none) (hc : s.cmd = some c) :
    step s = .next { s.nextPins with
      STATE := (transact s.STATE c).1, rsp := some (transact s.STATE c).2 } :=
  (portStep_perform (s := s.nextPins) hrst hr hc).trans (performingIsTheTransaction c s.nextPins)

theorem step_accept (hr : s.rsp = none) (hc : s.cmd = none) (hv : s.pins.cmdValid = true) :
    step s = .next { s with cmd := some s.pins.cmd, host := s.host.tail } :=
  portStep_accept hrst hr hc hv

theorem step_wait (hr : s.rsp = none) (hc : s.cmd = none) (hv : s.pins.cmdValid = false) :
    step s = .next s.nextPins :=
  portStep_wait hrst hr hc hv

end

theorem State.accepts_iff (s : State) (p : Pins) :
    s.accepts p = true ↔ p.cmdValid = true ∧ p.rst = false ∧ s.cmd = none ∧ s.rsp = none := by
  simp [State.accepts, State.cmdReady, and_assoc]

/-- A step answers a next state, or takes a response whose status no core produces (R70). -/
theorem step_next_or_unnamed (s : State) :
    (∃ t, step s = .next t) ∨
    (s.pins.rst = false ∧ s.pins.rspReady = true ∧ (∃ r, s.rsp = some r ∧ ¬ statusNamed r = true) ∧
      step s = .fault .reservedStatus) := by
  cases hrst : s.pins.rst with
  | true => exact .inl ⟨_, step_of_rst hrst⟩
  | false =>
    cases hr : s.rsp with
    | some r =>
      cases ht : s.pins.rspReady with
      | false => exact .inl ⟨_, step_stall hrst hr ht⟩
      | true =>
        by_cases hn : statusNamed r = true
        · exact .inl ⟨_, step_take hrst hr ht hn⟩
        · exact .inr ⟨rfl, rfl, ⟨r, rfl, hn⟩, step_take_unnamed hrst hr ht hn⟩
    | none =>
      cases hc : s.cmd with
      | some c => exact .inl ⟨_, step_perform hrst hr hc⟩
      | none =>
        cases hv : s.pins.cmdValid with
        | true => exact .inl ⟨_, step_accept hrst hr hc hv⟩
        | false => exact .inl ⟨_, step_wait hrst hr hc hv⟩

theorem statusNamed_iff (r : RspWord) : statusNamed r = true ↔ (rspStatus r).toNat ≤ 3 := decide_eq_true_iff

/-! ### The obligations on single steps -/

/-- Settles O41: the step is the reset of the core, whose port is empty. -/
theorem resetPinRestartsTheCore : Obligations.ResetPinRestartsTheCore := by
  intro s hrst
  refine ⟨step_of_rst hrst, s.cmdReady_of_rst hrst, fun t ht => ?_⟩
  cases (step_of_rst hrst).symm.trans ht
  exact ⟨State.rspValid_of_no_rsp rfl, fun p hp => State.cmdReady_of_empty hp rfl rfl⟩

/-- Settles O42: the port performs what it holds, and a reserved opcode raises ILLEGAL_OP. -/
theorem stepPerformsTheAcceptedCommand : Obligations.StepPerformsTheAcceptedCommand := by
  intro s c hc hr hrst
  have hstep : step s = performCommand c s.nextPins := portStep_perform hrst hr hc
  exact ⟨fun i hi => hstep.trans (performCommand_instr hi _),
    fun op hop => hstep.trans (performCommand_reserved hop _)⟩

theorem tableWord_72 (w : Nat) : tableWord 72 w = BitVec.ofNat 72 w :=
  BitVec.eq_of_toNat_eq (by simp [tableWord])

/-- What `decodeTableWord` reads from a row is what the row's word decodes to. -/
theorem decode_of_decodeTableWord {nbits w : Nat} {i : Instr} (h : decodeTableWord nbits w = some i) :
    decode (tableWord nbits w) = .instr i := by
  unfold decodeTableWord at h
  split at h
  · split at h
    · cases h; assumption
    · cases h
  · cases h

/-- Settles O43: the placed word is performed by the next step, and decodes to the row's command. -/
theorem placedWordRunsNext : Obligations.PlacedWordRunsNext := by
  intro s w i h
  rw [← tableWord_72]
  exact (step_withAccepted _ s).trans (performCommand_instr (decode_of_decodeTableWord h) _)

/-- Settles O44: `cmd_ready` asks for an empty port and no reset, and an empty port accepts or waits. -/
theorem acceptanceHandshake : Obligations.AcceptanceHandshake := by
  refine ⟨State.accepts_iff, fun s h => ?_, fun s hc hr hrst hv => step_wait hrst hr hc hv⟩
  obtain ⟨hv, hrst, hc, hr⟩ := (s.accepts_iff s.pins).mp h
  exact step_accept hrst hr hc hv

theorem State.not_accepts_of_rsp {s : State} {r : RspWord} (hr : s.rsp = some r) (p : Pins) :
    s.accepts p = false :=
  State.accepts_of_not_ready (by simp [State.cmdReady, hr])

theorem State.not_accepts_of_cmd {s : State} {c : CmdWord} (hc : s.cmd = some c) (p : Pins) :
    s.accepts p = false :=
  State.accepts_of_not_ready (by simp [State.cmdReady, hc])

/-- Settles O45: a pending response keeps the port busy, and is kept or taken as `rsp_ready` says. -/
theorem responseHandshake : Obligations.ResponseHandshake := by
  intro s r hr hrst
  refine ⟨by rw [State.rspValid, hr]; rfl, State.not_accepts_of_rsp hr _, step_stall hrst hr, fun ht hn => ?_⟩
  exact step_take hrst hr ht ((statusNamed_iff r).mpr hn)

/-- Settles O46: every step but that one answers a next state. -/
theorem stepStopsOnlyOnAReservedStatus : Obligations.StepStopsOnlyOnAReservedStatus := by
  intro s
  refine ⟨fun f => ⟨fun hf => ?_, ?_⟩, fun q hq => ?_⟩
  · obtain ⟨t, h⟩ | ⟨hrst, ht, ⟨r, hr, hn⟩, h⟩ := step_next_or_unnamed s
    · cases h.symm.trans hf
    · cases h.symm.trans hf
      rw [statusNamed_iff] at hn
      exact ⟨rfl, hrst, ht, r, hr, by omega⟩
  · rintro ⟨rfl, hrst, ht, r, hr, hstatus⟩
    exact step_take_unnamed hrst hr ht (by rw [statusNamed_iff]; omega)
  · obtain ⟨t, h⟩ | ⟨-, -, -, h⟩ := step_next_or_unnamed s <;> cases h.symm.trans hq

end Sys2Proof.Machine
end

/-! ## The invariant of the port (10_state.md, 70_reset_and_hazards.md) -/
section

namespace Sys2Proof.Machine

/-! ### Responses that are legal, and answers to a command -/

theorem rspLegal_ok (d : Data) : RspLegal (rspWord .ok d) :=
  ⟨by rw [rspStatus_rspWord]; decide, fun h => absurd (rspStatus_rspWord .ok d) h⟩

theorem rspLegal_error (e : CmdError) : RspLegal (rspWord (errorStatus e) 0) :=
  ⟨by rw [rspStatus_rspWord]; cases e <;> decide, fun _ => rspData_rspWord _ 0⟩

/-- Whatever answers a command is legal: OK with any data, or an error with none. -/
theorem Answers.legal {c : CmdWord} {st : Word} {r : RspWord} (h : Answers c st r) : RspLegal r := by
  unfold Answers at h
  split at h
  · exact h ▸ rspLegal_error .illegalOp
  · exact h.2 ▸ rspLegal_ok 0
  · obtain rfl | ⟨-, rfl⟩ := h
    · exact rspLegal_ok _
    · exact rspLegal_error .invalidState
  · obtain ⟨-, rfl⟩ | ⟨-, rfl⟩ | ⟨-, -, rfl⟩ := h
    · exact rspLegal_error .invalidRange
    · exact rspLegal_ok _
    · exact rspLegal_error .invalidState
  · obtain rfl | ⟨-, rfl⟩ := h
    · exact rspLegal_ok _
    · exact rspLegal_error .invalidState
  · exact h ▸ rspLegal_ok _
  · exact h.2 ▸ rspLegal_ok 0

/-- The response of an advance answers with the new STATE, or with InvalidState and STATE still 0. -/
theorem advanceTransaction_rsp (data : Word → Data) (st : Word) :
    (advanceTransaction data st).2 = rspWord .ok (data (advanceTransaction data st).1) ∨
    (advanceTransaction data st).1 = 0 ∧ (advanceTransaction data st).2 = rspWord .invalidState 0 := by
  unfold advanceTransaction
  split_ifs with h
  · exact .inr ⟨h, rfl⟩
  · exact .inl rfl

/-- The transaction of a command answers it, with the STATE it leaves. -/
theorem transact_answers (st : Word) (c : CmdWord) : Answers c (transact st c).1 (transact st c).2 := by
  unfold Answers
  obtain ⟨h, hc⟩ | ⟨h, hc⟩ | ⟨h, hc⟩ | ⟨h, hc⟩ | ⟨h, hc⟩ | ⟨h, hc⟩ | ⟨h, hc⟩ := decode_cases c <;>
    simp only [hc]
  · rw [transact_of_load (.inl h)]
    exact ⟨rfl, rfl⟩
  · rw [transact_of_op_02 h]
    exact advanceTransaction_rsp zext64 st
  · obtain hlt | hle := lt_or_ge (s32 (aOf c)) (s32 (bOf c))
    · rw [transact_of_valid_range h hlt]
      obtain hok | hinv := advanceTransaction_rsp (fun v => sext64 (u32 (RS v (s32 (aOf c)) (s32 (bOf c))))) st
      · exact .inr (.inl ⟨hlt, hok⟩)
      · exact .inr (.inr ⟨hlt, hinv⟩)
    · rw [transact_of_empty_range h hle]
      exact .inl ⟨hle, rfl⟩
  · rw [transact_of_op_04 h]
    exact advanceTransaction_rsp FSbits st
  · rw [transact_of_op_05 h]
  · rw [transact_of_load (.inr h)]
    exact ⟨rfl, rfl⟩
  · rw [transact_of_reserved ((reserved_op_iff _).mpr h)]

theorem statusNamed_transact (st : Word) (c : CmdWord) : statusNamed (transact st c).2 = true :=
  (statusNamed_iff _).mpr (transact_answers st c).legal.1

/-! ### The states of the invariant -/

/-- A pending response of the invariant is legal, so it can be taken. -/
theorem State.Inv.pendingLegal {s : State} (hi : s.Inv) {r : RspWord} (hr : s.rsp = some r) : RspLegal r := by
  cases hc : s.cmd with
  | none => cases (hi.held hc).symm.trans hr
  | some c => exact (hi.answered c r hc hr).legal

/-- With no response pending, the invariant only speaks of the responses taken. -/
theorem State.inv_of_no_rsp {s : State} (hr : s.rsp = none) (htaken : ∀ r ∈ s.taken, RspLegal r) : s.Inv :=
  ⟨fun _ => hr, fun _ _ _ h => (nomatch hr.symm.trans h), htaken⟩

/-! ### The obligations -/

/-- Settles O47: nothing is pending and nothing has been taken. -/
theorem invariantHoldsAtReset : Obligations.InvariantHoldsAtReset :=
  State.inv_of_no_rsp rfl fun _ h => nomatch h

/-- Settles O48, by everything a port step can have done: only performing a command makes a response pending,
and then it is the command's transaction; only a legal response is taken. -/
theorem stepKeepsThePortInvariant : Obligations.StepKeepsThePortInvariant := by
  intro s t hi h
  obtain ⟨-, rfl⟩ | ⟨r, -, hr, -, -, rfl⟩ | ⟨r, -, -, -, rfl⟩ | ⟨c, -, hr, hc, hp⟩ | ⟨-, hr, -, -, rfl⟩ |
    ⟨-, -, -, -, rfl⟩ := portStep_cases h
  · exact State.inv_of_no_rsp rfl hi.takenLegal
  · refine State.inv_of_no_rsp rfl fun q hq => ?_
    obtain hq | rfl := List.mem_append.mp hq |>.imp_right List.mem_singleton.mp
    · exact hi.takenLegal q hq
    · exact hi.pendingLegal hr
  · exact ⟨hi.held, hi.answered, hi.takenLegal⟩
  · cases (performingIsTheTransaction c s.nextPins).symm.trans hp
    refine ⟨fun hnone => (nomatch hc.symm.trans hnone), fun c' r' hc' hr' => ?_, hi.takenLegal⟩
    cases hc.symm.trans hc'
    cases hr'
    exact transact_answers s.STATE c
  · exact State.inv_of_no_rsp hr hi.takenLegal
  · exact ⟨hi.held, hi.answered, hi.takenLegal⟩

/-- Settles O49: the one step that stops would take a response that is not legal. -/
theorem stepIsTotalUnderTheInvariant : Obligations.StepIsTotalUnderTheInvariant := by
  intro s hi
  obtain h | ⟨-, -, ⟨r, hr, hn⟩, -⟩ := step_next_or_unnamed s
  · exact h
  · exact absurd ((statusNamed_iff r).mpr (hi.pendingLegal hr).1) hn

end Sys2Proof.Machine
end

/-! ## Runs over the port (20_memory.md section 2, 70_reset_and_hazards.md sections 3 and 5) -/
section

namespace Sys2Proof.Machine

/-! ### Runs, and the pins at the head of the host's list -/

theorem coreRun_succ_of_next (M : Host.Core) {n : Nat} {s t : M.State} (h : M.run (n + 1) s = .next t) :
    ∃ u, M.step s = .next u ∧ M.run n u = .next t := by
  simp only [Host.Core.run] at h
  split at h
  case h_1 u hu => exact ⟨u, hu, h⟩
  all_goals cases h

theorem run_succ_of_next {n : Nat} {s t : State} (h : Sys2Proof.core.run (n + 1) s = .next t) :
    ∃ u, step s = .next u ∧ Sys2Proof.core.run n u = .next t :=
  coreRun_succ_of_next Sys2Proof.core h

/-- What every step keeps holds at the end of every run. -/
theorem run_keeps {P : State → Prop} (hstep : ∀ s t, P s → step s = .next t → P t) {n : Nat} {s t : State}
    (hs : P s) (h : Sys2Proof.core.run n s = .next t) : P t := by
  induction n generalizing s with
  | zero => cases h; exact hs
  | succ n ih =>
    obtain ⟨u, hu, hrun⟩ := run_succ_of_next h
    exact ih (hstep s u hs hu) hrun

theorem run_add {m : Nat} {s t : State} (n : Nat) (h : Sys2Proof.core.run m s = .next t) :
    Sys2Proof.core.run (m + n) s = Sys2Proof.core.run n t := by
  induction m generalizing s with
  | zero => cases h; rw [Nat.zero_add]
  | succ m ih =>
    obtain ⟨u, hu, hrun⟩ := run_succ_of_next h
    rw [Nat.succ_add, run_succ_of_step (m + n) hu, ih hrun]

theorem State.pins_of_cons {s : State} {p : Pins} {ps : List Pins} (h : s.host = p :: ps) : s.pins = p := by
  rw [State.pins, h]
  rfl

theorem State.pins_of_nil {s : State} (h : s.host = []) : s.pins = Pins.quiet := by
  rw [State.pins, h]
  rfl

theorem State.nextPins_of_cons {s : State} {p : Pins} {ps : List Pins} (h : s.host = p :: ps) :
    s.nextPins = { s with host := ps } := by
  rw [State.nextPins, h]
  rfl

/-! ### A command presented again and again -/

/-- Settles O50: an empty port accepts at once, a pending response is taken first, and a held command is
performed before that. -/
theorem presentedCommandIsSoonAccepted : Obligations.PresentedCommandIsSoonAccepted := by
  intro s c rest hi hhost
  have hhost : s.host = Pins.offer c true :: Pins.offer c true :: Pins.offer c true :: rest := hhost
  have hpins := State.pins_of_cons hhost
  have hrst : s.pins.rst = false := by rw [hpins]; rfl
  have hready : s.pins.rspReady = true := by rw [hpins]; rfl
  cases hr : s.rsp with
  | some r =>
    have htake := step_take hrst hr hready ((statusNamed_iff r).mpr (hi.pendingLegal hr).1)
    rw [hhost] at htake
    exact ⟨1, _, by norm_num, run_succ_of_step 0 htake, rfl, rfl⟩
  | none =>
    cases hc : s.cmd with
    | none =>
      have haccepts : s.accepts s.pins = true :=
        (s.accepts_iff s.pins).mpr ⟨by rw [hpins]; rfl, hrst, hc, hr⟩
      exact ⟨0, s, by norm_num, rfl, haccepts, by rw [hpins]; rfl⟩
    | some c' =>
      have hperform := step_perform hrst hr hc
      rw [State.nextPins_of_cons hhost] at hperform
      have htake := step_take (s := { s with
          STATE := (transact s.STATE c').1
          rsp := some (transact s.STATE c').2
          host := Pins.offer c true :: Pins.offer c true :: rest })
        rfl rfl rfl (statusNamed_transact s.STATE c')
      exact ⟨2, _, le_rfl, (run_succ_of_step 1 hperform).trans (run_succ_of_step 0 htake), rfl, rfl⟩

/-! ### Scripted hosts -/

/-- The pins of a scripted host from the step that performs a command on, with `rsp_ready` as in `rs` until the
port is empty again: `hostScript` from there. -/
def busyScript (rs : List Bool) (ds : List Delivery) : List Pins :=
  presentLast (ds.head?.elim 0 Delivery.early) (ds.head?.elim 0 Delivery.cmd) rs ++ hostScript ds

theorem hostScript_cons_busyScript (d : Delivery) (ds : List Delivery) :
    hostScript (d :: ds) = d.lead ++ Pins.offer d.cmd d.ready :: busyScript d.busyReady ds := rfl

theorem busyScript_cons (r : Bool) (rs : List Bool) (ds : List Delivery) :
    busyScript (r :: rs) ds =
      { rst := false, cmdValid := decide (rs.length < ds.head?.elim 0 Delivery.early),
        cmd := ds.head?.elim 0 Delivery.cmd, rspReady := r } :: busyScript rs ds := rfl

theorem Delivery.lead_eq (d : Delivery) : ∃ j, d.lead = List.replicate j (Pins.idle d.ready) := by
  unfold Delivery.lead
  split_ifs
  · exact ⟨d.idle, rfl⟩
  · exact ⟨0, rfl⟩

/-- Where the states of a scripted run are in the script. -/
inductive Scripted (s : State) : Prop
  /-- `j` idle steps before the delivery of `d` -/
  | idle (j : Nat) (d : Delivery) (ds : List Delivery) (empty : s.portEmpty)
      (host : s.host = List.replicate j (Pins.idle d.ready) ++ Pins.offer d.cmd d.ready :: busyScript d.busyReady ds)
  /-- past the end of the script -/
  | done (empty : s.portEmpty) (host : s.host = [])
  /-- the command is accepted and not performed -/
  | held (c : CmdWord) (d : Delivery) (ds : List Delivery) (cmd : s.cmd = some c) (rsp : s.rsp = none)
      (host : s.host = busyScript d.busyReady ds)
  /-- `j` stalls before the response is taken -/
  | pending (r : RspWord) (j : Nat) (ds : List Delivery) (rsp : s.rsp = some r) (named : statusNamed r = true)
      (host : s.host = busyScript (List.replicate j false ++ [true]) ds)

theorem scripted_of_portEmpty {s : State} {ds : List Delivery} (he : s.portEmpty) (hh : s.host = hostScript ds) :
    Scripted s := by
  cases ds with
  | nil => exact .done he hh
  | cons d ds =>
    obtain ⟨j, hj⟩ := d.lead_eq
    exact .idle j d ds he (by rw [hh, hostScript_cons_busyScript, hj])

theorem scripted_step {s t : State} (hs : Scripted s) (h : step s = .next t) : Scripted t := by
  cases hs with
  | idle j d ds he hh =>
    cases j with
    | zero =>
      have hpins : s.pins = Pins.offer d.cmd d.ready := State.pins_of_cons hh
      have hstep := step_accept (by rw [hpins]; rfl) he.2 he.1 (by rw [hpins]; rfl)
      cases hstep.symm.trans h
      exact .held _ d ds rfl he.2 (congrArg List.tail hh)
    | succ j =>
      have hpins : s.pins = Pins.idle d.ready := State.pins_of_cons hh
      have hstep := step_wait (by rw [hpins]; rfl) he.2 he.1 (by rw [hpins]; rfl)
      cases hstep.symm.trans h
      exact .idle j d ds he (congrArg List.tail hh)
  | done he hh =>
    have hpins := State.pins_of_nil hh
    have hstep := step_wait (by rw [hpins]; rfl) he.2 he.1 (by rw [hpins]; rfl)
    cases hstep.symm.trans h
    exact .done he (congrArg List.tail hh)
  | held c d ds hc hr hh =>
    have hpins := State.pins_of_cons hh
    have hstep := step_perform (by rw [hpins]) hr hc
    cases hstep.symm.trans h
    exact .pending _ d.stall ds rfl (statusNamed_transact s.STATE c) (congrArg List.tail hh)
  | pending r j ds hr hn hh =>
    cases j with
    | zero =>
      have hpins := State.pins_of_cons hh
      have hstep := step_take (by rw [hpins]) hr (by rw [hpins]) hn
      cases hstep.symm.trans h
      exact scripted_of_portEmpty ⟨rfl, rfl⟩ (congrArg List.tail hh)
    | succ j =>
      have hpins := State.pins_of_cons hh
      have hstep := step_stall (by rw [hpins]) hr (by rw [hpins])
      cases hstep.symm.trans h
      exact .pending r j ds hr hn (congrArg List.tail hh)

/-- Within a busy phase a command once presented stays on the pins, and is the first thing on them after it. -/
theorem hostHoldsCommand_of_busyScript {s : State} {r : Bool} {rs : List Bool} {ds : List Delivery}
    (hh : s.host = busyScript (r :: rs) ds) : s.hostHoldsCommand := by
  intro hv _
  rw [busyScript_cons] at hh
  rw [State.pins_of_cons hh] at hv ⊢
  rw [State.nextPins_of_cons hh]
  have hv : rs.length < ds.head?.elim 0 Delivery.early := of_decide_eq_true hv
  cases rs with
  | nil =>
    cases ds with
    | nil => cases hv
    | cons d ds =>
      have hhead := hostScript_early (Nat.ne_of_gt hv) ds
      obtain ⟨ps, hps⟩ := List.head?_eq_some_iff.mp hhead
      rw [State.pins_of_cons hps]
      exact ⟨rfl, rfl⟩
  | cons r' rs =>
    rw [State.pins_of_cons (busyScript_cons r' rs ds)]
    exact ⟨decide_eq_true (Nat.lt_of_succ_lt hv), rfl⟩

theorem hostHoldsCommand_of_accepts {s : State} (h : s.accepts s.pins = true) : s.hostHoldsCommand :=
  fun _ hn => nomatch h.symm.trans hn

theorem hostHoldsCommand_of_not_cmdValid {s : State} (h : s.pins.cmdValid = false) : s.hostHoldsCommand :=
  fun hv => nomatch h.symm.trans hv

theorem Scripted.hostHoldsCommand {s : State} (hs : Scripted s) : s.hostHoldsCommand := by
  cases hs with
  | idle j d ds he hh =>
    cases j with
    | zero =>
      have hpins : s.pins = Pins.offer d.cmd d.ready := State.pins_of_cons hh
      refine hostHoldsCommand_of_accepts ((s.accepts_iff _).mpr ⟨?_, ?_, he⟩) <;> rw [hpins] <;> rfl
    | succ j => exact hostHoldsCommand_of_not_cmdValid (by rw [State.pins_of_cons hh]; rfl)
  | done he hh => exact hostHoldsCommand_of_not_cmdValid (by rw [State.pins_of_nil hh]; rfl)
  | held c d ds hc hr hh => exact hostHoldsCommand_of_busyScript hh
  | pending r j ds hr hn hh =>
    cases j with
    | zero => exact hostHoldsCommand_of_busyScript hh
    | succ j => exact hostHoldsCommand_of_busyScript hh

/-- Settles O51: every state of such a run is somewhere in the script, and there the host holds its command. -/
theorem scriptedHostsHoldTheirCommands : Obligations.ScriptedHostsHoldTheirCommands :=
  fun _ _ _ _ he hh hrun =>
    (run_keeps (fun _ _ => scripted_step) (scripted_of_portEmpty he hh) hrun).hostHoldsCommand

/-! ### A scripted run is a transaction-level run -/

theorem run_idle {j : Nat} {ready : Bool} {s : State} {rest : List Pins} (he : s.portEmpty)
    (hh : s.host = List.replicate j (Pins.idle ready) ++ rest) :
    Sys2Proof.core.run j s = .next { s with host := rest } := by
  induction j generalizing s with
  | zero => rw [← show s.host = rest from hh]; rfl
  | succ j ih =>
    have hpins : s.pins = Pins.idle ready := State.pins_of_cons hh
    have hstep := step_wait (by rw [hpins]; rfl) he.2 he.1 (by rw [hpins]; rfl)
    exact (run_succ_of_step j hstep).trans (ih he (congrArg List.tail hh))

theorem run_stalls_take {j e : Nat} {c : CmdWord} {r : RspWord} {s : State} {rest : List Pins}
    (hr : s.rsp = some r) (hn : statusNamed r = true)
    (hh : s.host = presentLast e c (List.replicate j false ++ [true]) ++ rest) :
    Sys2Proof.core.run (j + 1) s =
      .next { s with cmd := none, rsp := none, host := rest, taken := s.taken ++ [r] } := by
  induction j generalizing s with
  | zero =>
    have hpins := State.pins_of_cons hh
    have hstep := step_take (by rw [hpins]) hr (by rw [hpins]) hn
    rw [hh] at hstep
    exact run_succ_of_step 0 hstep
  | succ j ih =>
    have hpins := State.pins_of_cons hh
    have hstep := step_stall (by rw [hpins]) hr (by rw [hpins])
    exact (run_succ_of_step (j + 1) hstep).trans (ih (s := s.nextPins) hr (congrArg List.tail hh))

/-- One delivery over an empty port is one transaction (R46, R215). -/
theorem run_delivery {d : Delivery} {e : Nat} {c : CmdWord} {s : State} {rest : List Pins} (he : s.portEmpty)
    (hh : s.host = d.lead ++ Pins.offer d.cmd d.ready :: (presentLast e c d.busyReady ++ rest)) :
    Sys2Proof.core.run (d.lead.length + (d.stall + 3)) s = .next { s with
      STATE := (transact s.STATE d.cmd).1
      host := rest
      taken := s.taken ++ [(transact s.STATE d.cmd).2] } := by
  obtain ⟨STATE, cmd, rsp, host, taken⟩ := s
  obtain ⟨rfl, rfl⟩ := he
  obtain ⟨j, hj⟩ := d.lead_eq
  rw [hj] at hh
  have haccept := step_accept (s := ⟨STATE, none, none, Pins.offer d.cmd d.ready ::
    (presentLast e c d.busyReady ++ rest), taken⟩) rfl rfl rfl rfl
  have hperform := step_perform (s := ⟨STATE, some d.cmd, none, presentLast e c d.busyReady ++ rest, taken⟩)
    rfl rfl rfl
  rw [hj, List.length_replicate, run_add _ (run_idle ⟨rfl, rfl⟩ hh)]
  exact (run_succ_of_step _ haccept).trans ((run_succ_of_step _ hperform).trans
    (run_stalls_take rfl (statusNamed_transact STATE d.cmd) rfl))

theorem hostScript_cons_length (d : Delivery) (ds : List Delivery) :
    (hostScript (d :: ds)).length = d.lead.length + (d.stall + 3) + (hostScript ds).length := by
  have hbusy : d.busyReady.length = d.stall + 2 := by simp [Delivery.busyReady]
  rw [hostScript_cons, List.length_append, List.length_cons, List.length_append, presentLast_length, hbusy]
  omega

/-- Settles O53, delivery by delivery: each ends with an empty port, where the next one begins. -/
theorem portRunsRefineTransactionRuns : Obligations.PortRunsRefineTransactionRuns := by
  intro s ds rest he hh
  induction ds generalizing s with
  | nil =>
    obtain rfl : s.host = rest := hh
    rw [List.map_nil, runOf_nil, List.append_nil]
    rfl
  | cons d ds ih =>
    rw [hostScript_cons, List.append_assoc, List.cons_append, List.append_assoc] at hh
    rw [hostScript_cons_length, run_add _ (run_delivery he hh), List.map_cons, runOf_cons]
    refine (ih { s with
      STATE := (transact s.STATE d.cmd).1
      host := hostScript ds ++ rest
      taken := s.taken ++ [(transact s.STATE d.cmd).2] } he rfl).trans ?_
    rw [List.append_assoc]
    rfl

/-! ### Any host that does not assert `rst` -/

/-- STATE of `s`, and the responses taken and pending in it, are those of the transaction-level run from `s₀`
over `done`. -/
structure FollowsRun (s₀ : State) (done : List CmdWord) (s : State) : Prop where
  state : s.STATE = (runOf s₀.STATE done).1
  responses : s.taken ++ s.rsp.toList = s₀.taken ++ (runOf s₀.STATE done).2

/-- Performing a command takes the transaction-level run one command further. -/
theorem FollowsRun.perform {s₀ s : State} {done : List CmdWord} (h : FollowsRun s₀ done s) (hr : s.rsp = none)
    (c : CmdWord) : FollowsRun s₀ (done ++ [c])
      { s.nextPins with STATE := (transact s.STATE c).1, rsp := some (transact s.STATE c).2 } := by
  obtain ⟨hstate, hrsps⟩ := h
  rw [hr, Option.toList_none, List.append_nil] at hrsps
  constructor <;> rw [runOf_append, ← hstate, runOf_cons]
  · rfl
  · rw [← List.append_assoc, ← hrsps]
    rfl

/-- `s` is reached from `s₀`, the commands `cs` accepted on the way, as a transaction-level run says. -/
structure Tracks (s₀ : State) (cs : List CmdWord) (s : State) : Prop where
  noReset : ∀ p ∈ s.host, p.rst = false
  held : ∀ c, s.cmd = some c → cs.getLast? = some c
  idle : s.cmd = none → s.rsp = none
  named : ∀ r, s.rsp = some r → statusNamed r = true
  follows : ∃ done, s.performed cs = done ∧ FollowsRun s₀ done s

theorem tracks_of_portEmpty {s : State} (he : s.portEmpty) (hrst : ∀ p ∈ s.host, p.rst = false) :
    Tracks s [] s := by
  obtain ⟨hc, hr⟩ := he
  refine ⟨hrst, fun c h => (nomatch hc.symm.trans h), fun _ => hr, fun r h => (nomatch hr.symm.trans h),
    [], State.performed_of_no_cmd hc _, rfl, ?_⟩
  rw [hr]
  rfl

theorem State.rst_pins_of_noReset {s : State} (h : ∀ p ∈ s.host, p.rst = false) : s.pins.rst = false := by
  unfold State.pins
  cases hh : s.host with
  | nil => rfl
  | cons p ps => exact h p (hh ▸ List.mem_cons_self)

/-- A step goes on tracking the transaction-level run, with the command it accepts, if any, after the others. -/
theorem tracks_step {s₀ s : State} {cs : List CmdWord} (h : Tracks s₀ cs s) :
    ∃ t, step s = .next t ∧ Tracks s₀ (cs ++ if s.accepts s.pins then [s.pins.cmd] else []) t := by
  obtain ⟨hno, hheld, hidle, hnamed, done, hdone, hrun⟩ := h
  have hrst := State.rst_pins_of_noReset hno
  have hno' : ∀ p ∈ s.host.tail, p.rst = false := fun p hp => hno p (List.mem_of_mem_tail hp)
  cases hr : s.rsp with
  | some r =>
    rw [State.not_accepts_of_rsp hr, if_neg Bool.false_ne_true, List.append_nil]
    cases ht : s.pins.rspReady with
    | true =>
      have hall : cs = done := (State.performed_of_rsp hr cs).symm.trans hdone
      obtain ⟨hstate, hrsps⟩ := hrun
      rw [hr] at hrsps
      exact ⟨_, step_take hrst hr ht (hnamed r hr), hno', nofun, fun _ => rfl, nofun, done,
        (State.performed_of_no_cmd rfl cs).trans hall, hstate, (List.append_nil _).trans hrsps⟩
    | false =>
      exact ⟨_, step_stall hrst hr ht, hno', hheld, hidle, hnamed, done, hdone, hrun.state, hrun.responses⟩
  | none =>
    cases hc : s.cmd with
    | some c =>
      rw [State.not_accepts_of_cmd hc, if_neg Bool.false_ne_true, List.append_nil]
      obtain ⟨ds, rfl⟩ := List.getLast?_eq_some_iff.mp (hheld c hc)
      have hall : ds = done := (State.performed_of_held hc hr ds).symm.trans hdone
      refine ⟨_, step_perform hrst hr hc, hno', hheld, fun hn => (nomatch hc.symm.trans hn), ?_, ds ++ [c],
        State.performed_of_rsp rfl _, (hall ▸ hrun).perform hr c⟩
      rintro r ⟨⟩
      exact statusNamed_transact s.STATE c
    | none =>
      cases hv : s.pins.cmdValid with
      | true =>
        have haccepts : s.accepts s.pins = true := (s.accepts_iff s.pins).mpr ⟨hv, hrst, hc, hr⟩
        have hall : cs = done := (State.performed_of_no_cmd hc cs).symm.trans hdone
        rw [haccepts, if_pos rfl]
        refine ⟨_, step_accept hrst hr hc hv, hno', ?_, fun _ => hr, hnamed, done,
          (State.performed_of_held (s := { s with cmd := some s.pins.cmd }) rfl hr cs).trans hall,
          hrun.state, hrun.responses⟩
        rintro c ⟨⟩
        exact List.getLast?_concat
      | false =>
        have haccepts : ¬ s.accepts s.pins = true := fun ha =>
          nomatch hv.symm.trans ((s.accepts_iff s.pins).mp ha).1
        rw [if_neg haccepts, List.append_nil]
        exact ⟨_, step_wait hrst hr hc hv, hno', hheld, hidle, hnamed, done, hdone, hrun.state, hrun.responses⟩

theorem tracks_run {s₀ s : State} {cs : List CmdWord} (h : Tracks s₀ cs s) (n : Nat) :
    ∃ t, Sys2Proof.core.run n s = .next t ∧ Tracks s₀ (cs ++ acceptedIn n s) t := by
  induction n generalizing s cs with
  | zero => exact ⟨s, rfl, by rwa [acceptedIn_zero, List.append_nil]⟩
  | succ n ih =>
    obtain ⟨u, hu, hs⟩ := tracks_step h
    obtain ⟨t, ht, hut⟩ := ih hs
    refine ⟨t, (run_succ_of_step n hu).trans ht, ?_⟩
    rwa [acceptedIn_succ_of_step n hu, ← List.append_assoc]

/-- Settles O59: the run tracks the transaction-level run from its first state on. -/
theorem runUnderAnyHostIsATransactionRun : Obligations.RunUnderAnyHostIsATransactionRun := by
  intro s n he hrst
  obtain ⟨t, ht, htracks⟩ := tracks_run (tracks_of_portEmpty he hrst) n
  obtain ⟨done, hdone, hrun⟩ := htracks.follows
  rw [List.nil_append] at hdone htracks
  refine ⟨t, ht, htracks.held, ?_, ?_⟩ <;> rw [hdone]
  · exact hrun.state
  · exact hrun.responses

end Sys2Proof.Machine
end
